-- ==== Sys2Proof/Word.lean ====
section
/-! DEFINITION. The two word types of the core: data bytes and addresses (00_scope.md R7). -/

namespace Sys2Proof

/-- An 8-bit value: a register other than PC, or the byte of one bus transfer (R7). Arithmetic on it is
modulo 256 (R10). -/
abbrev Byte := BitVec 8

/-- A 16-bit address (R7). Arithmetic on it is modulo 65536 (R10). -/
abbrev Addr := BitVec 16

end Sys2Proof
end

