-- ==== Sys2Proof/Config.lean ====
section
/-! DEFINITION. The implementation parameters of 00_scope.md R8 as plain data, and the free values of a
peripheral. The parameters stand in State (10_state.md R39: every step reads them, no step writes them), so a
statement about every state holds for every value of every parameter. Their defaults are
`Config.standard` in Decode.lean. -/

namespace Sys2Proof

/-- `RESET_PC` (R8, D11): PC is zero after reset, or an externally given address. -/
inductive ResetPc where
  | zero
  | given (v : Addr)
  deriving DecidableEq, Repr

/-- `UNMAPPED_WRITE` (R8, D8): what a write that no mapping contains does. -/
inductive UnmappedWritePolicy where
  | drop
  | fault
  deriving DecidableEq, Repr

/-- `XY_STORE_MODES` (R8, D5; 30_encoding.md R78): the store modes STX and STY have, a subset of
the two. -/
structure StoreModes where
  zeroPage : Bool
  absolute : Bool
  deriving DecidableEq, Repr

/-- `COST` (R8, D12): for an opcode byte, how many budget units its handler takes BEYOND the one unit of the
opcode fetch. A byte that is not listed takes none, and NOP takes none whatever is listed (`Cost.of`). So every cost is at
least 1 by construction, as R8 asks ("a positive integer"), and NOP's is 1. -/
abbrev Cost := List (Byte × Nat)

/-- The parameters of R8 that are values. `MAP` and the devices are R8's other two parameters; they
are fields of State themselves, because the host fills them with `attach`. -/
structure Config where
  spReset       : Byte
  resetPc       : ResetPc
  unmappedWrite : UnmappedWritePolicy
  xyStoreModes  : StoreModes
  /-- `BRK_PC_SKIP`: 0 or 1 (D6). -/
  brkPcSkip     : Fin 2
  cost          : Cost
  deriving DecidableEq, Repr

/-- FREE VALUE (log entry 10). What `devRead` of a peripheral of the given kind and inner state answers at a
local offset: any byte, and any new inner state. 20_memory.md R45: "A model gives it no law." -/
opaque Config.peripheralRead (kind inner off : Nat) : Byte × Nat

/-- FREE VALUE (log entry 10). The inner state a peripheral goes to when a byte is written at a local
offset (20_memory.md R45). -/
opaque Config.peripheralWrite (kind inner off : Nat) (v : Byte) : Nat

end Sys2Proof
end

