-- ==== Sys2Proof/Syntax.lean ====
section
/-! DEFINITION. The instructions: one constructor per row of spec/opcode_table.json (30_encoding.md R73), with the
operand its format carries (R71). A zero-page operand is its one byte, every other address a 16-bit value.
Unrecognized opcodes (R77) are no rows of the table: they are the decoder's other answer. -/

namespace Sys2Proof

/-- The 26 instructions of R73. -/
inductive Instr where
  | ldaImm (imm : Byte)
  | ldxImm (imm : Byte)
  | ldyImm (imm : Byte)
  | staZp  (zp : Byte)
  | staAbs (addr : Addr)
  | stxZp  (zp : Byte)
  | stxAbs (addr : Addr)
  | styZp  (zp : Byte)
  | styAbs (addr : Addr)
  | tax
  | txa
  | tay
  | tya
  | tsx
  | txs
  | pha
  | php
  | pla
  | plp
  | jmpAbs (target : Addr)
  | jmpInd (ptr : Addr)
  | jsr    (target : Addr)
  | rts
  | brk
  | rti
  | nop
  deriving DecidableEq, Repr

end Sys2Proof
end

