-- ==== Sys2Proof/WellFormed.lean ====
section
/-! DEFINITION. What makes an instruction and a configuration well-formed. Operand ranges need no check (their types are
exactly the widths of R71); what can be absent is a store form of X or Y (30_encoding.md R78). -/

namespace Sys2Proof

/-- `i` is an instruction of the core whose `XY_STORE_MODES` is `m` (R78: without zero-page, STX zp and STY zp are no
instructions; without absolute, STX abs and STY abs are none). -/
def Instr.wf (m : StoreModes) : Instr → Bool
  | .stxZp _ => m.zeroPage
  | .styZp _ => m.zeroPage
  | .stxAbs _ => m.absolute
  | .styAbs _ => m.absolute
  | .ldaImm _ => true
  | .ldxImm _ => true
  | .ldyImm _ => true
  | .staZp _ => true
  | .staAbs _ => true
  | .tax => true
  | .txa => true
  | .tay => true
  | .tya => true
  | .tsx => true
  | .txs => true
  | .pha => true
  | .php => true
  | .pla => true
  | .plp => true
  | .jmpAbs _ => true
  | .jmpInd _ => true
  | .jsr _ => true
  | .rts => true
  | .brk => true
  | .rti => true
  | .nop => true

/-- The one limit R8 sets on a parameter that its type does not: `SP_RESET` is not 0x00. -/
def Config.wf (c : Config) : Bool := c.spReset != 0x00#8

end Sys2Proof
end

