-- ==== Sys2Proof/Decode.lean ====
section
/-! DEFINITION. Byte order, the opcode map, the decoder, the encoder, and the defaults of the parameters (which name
opcodes). 30_encoding.md R70 to R84; the opcode byte values are the spec's decision D3 (log entry 12). -/

namespace Sys2Proof

/-! ### Bytes and addresses -/

/-- The 16-bit value whose low byte is `b` and whose high byte is 0x00 (00_scope.md R10). -/
def zext16 (b : Byte) : Addr := b.setWidth 16

/-- The 16-bit value with high byte `hi` and low byte `lo` (00_scope.md R10). -/
def joinBytes (hi lo : Byte) : Addr := hi ++ lo

/-- Bits 7:0 of an address. -/
def loByte (a : Addr) : Byte := a.extractLsb' 0 8

/-- Bits 15:8 of an address. -/
def hiByte (a : Addr) : Byte := a.extractLsb' 8 8

/-! ### The opcode map -/

/-- The three formats of R71: an opcode alone, with one operand byte, or with a 16-bit operand. -/
inductive Form where
  | f1 (i : Instr)
  | f2 (mk : Byte → Instr)
  | f3 (mk : Addr → Instr)

/-- An instruction's length in bytes, decided by its row alone (R76). -/
def Form.length : Form → Nat
  | .f1 _ => 1
  | .f2 _ => 2
  | .f3 _ => 3

/-- The table of R73, row by row. -/
def opcodeTable : List (Byte × Form) :=
  [(0xA9#8, .f2 .ldaImm),
   (0xA2#8, .f2 .ldxImm),
   (0xA0#8, .f2 .ldyImm),
   (0x85#8, .f2 .staZp),
   (0x8D#8, .f3 .staAbs),
   (0x86#8, .f2 .stxZp),
   (0x8E#8, .f3 .stxAbs),
   (0x84#8, .f2 .styZp),
   (0x8C#8, .f3 .styAbs)] ++
  [(0xAA#8, .f1 .tax),
   (0x8A#8, .f1 .txa),
   (0xA8#8, .f1 .tay),
   (0x98#8, .f1 .tya),
   (0xBA#8, .f1 .tsx),
   (0x9A#8, .f1 .txs)] ++
  [(0x48#8, .f1 .pha),
   (0x08#8, .f1 .php),
   (0x68#8, .f1 .pla),
   (0x28#8, .f1 .plp)] ++
  [(0x4C#8, .f3 .jmpAbs),
   (0x6C#8, .f3 .jmpInd),
   (0x20#8, .f3 .jsr),
   (0x60#8, .f1 .rts)] ++
  [(0x00#8, .f1 .brk),
   (0x40#8, .f1 .rti),
   (0xEA#8, .f1 .nop)]

/-- R78: `XY_STORE_MODES` removes 0x86 and 0x84 if it lacks zero-page, 0x8E and 0x8C if it lacks absolute. -/
def opcodePresent (m : StoreModes) (op : Byte) : Bool :=
  if op = 0x86#8 ∨ op = 0x84#8 then m.zeroPage
  else if op = 0x8E#8 ∨ op = 0x8C#8 then m.absolute
  else true

/-- The row an opcode byte selects, comparing all eight bits (R75); `none` is the unrecognized-opcode path
(R77). -/
def formOf (m : StoreModes) (op : Byte) : Option Form :=
  if opcodePresent m op then (opcodeTable.find? fun r => r.1 == op).map Prod.snd else none

/-! ### The decoder -/

/-- What the bytes of a program decode to. -/
inductive Decoded where
  /-- An instruction, with the bytes after it. -/
  | instr (i : Instr) (rest : List Byte)
  /-- An unrecognized opcode of length 1 (R76, R77), with the bytes after it. -/
  | unknown (op : Byte) (rest : List Byte)
  /-- The list ended before the instruction did. In the machine this cannot happen: every address reads. -/
  | truncated

/-- Decode the first instruction of a list of bytes (R70 to R77). -/
def decode (m : StoreModes) : List Byte → Decoded
  | [] => .truncated
  | op :: bs =>
    match formOf m op with
    | none => .unknown op bs
    | some (.f1 i) => .instr i bs
    | some (.f2 mk) =>
      match bs with
      | b1 :: rest => .instr (mk b1) rest
      | [] => .truncated
    | some (.f3 mk) =>
      match bs with
      | lo :: hi :: rest => .instr (mk (joinBytes hi lo)) rest
      | _ => .truncated

/-! ### The encoder -/

/-- The bytes of an instruction, in address order (R83). -/
def encode : Instr → List Byte
  | .ldaImm v => [0xA9#8, v]
  | .ldxImm v => [0xA2#8, v]
  | .ldyImm v => [0xA0#8, v]
  | .staZp z => [0x85#8, z]
  | .staAbs a => [0x8D#8, loByte a, hiByte a]
  | .stxZp z => [0x86#8, z]
  | .stxAbs a => [0x8E#8, loByte a, hiByte a]
  | .styZp z => [0x84#8, z]
  | .styAbs a => [0x8C#8, loByte a, hiByte a]
  | .tax => [0xAA#8]
  | .txa => [0x8A#8]
  | .tay => [0xA8#8]
  | .tya => [0x98#8]
  | .tsx => [0xBA#8]
  | .txs => [0x9A#8]
  | .pha => [0x48#8]
  | .php => [0x08#8]
  | .pla => [0x68#8]
  | .plp => [0x28#8]
  | .jmpAbs t => [0x4C#8, loByte t, hiByte t]
  | .jmpInd q => [0x6C#8, loByte q, hiByte q]
  | .jsr t => [0x20#8, loByte t, hiByte t]
  | .rts => [0x60#8]
  | .brk => [0x00#8]
  | .rti => [0x40#8]
  | .nop => [0xEA#8]

/-! ### The host's view of a table row -/

/-- Byte `k` of a word laid out as R71 numbers it (byte 0 in bits 7:0), the bits above `nbits` being 0. -/
def tableByte (nbits w k : Nat) : Byte := BitVec.ofNat 8 ((w % 2 ^ nbits) / 2 ^ (8 * k))

/-- The three bytes a table word lays out in memory, the first at the lowest address. -/
def tableBytes (nbits w : Nat) : List Byte := [tableByte nbits w 0, tableByte nbits w 1, tableByte nbits w 2]

/-- The whole `XY_STORE_MODES` (the default, D5). -/
def StoreModes.all : StoreModes := ⟨true, true⟩

/-- The instruction the decoder reads from a table row's word, under the default `XY_STORE_MODES` (log entry 22). -/
def decodeTableWord (nbits w : Nat) : Option Instr :=
  match decode .all (tableBytes nbits w) with
  | .instr i _ => some i
  | .unknown _ _ => none
  | .truncated => none

/-! ### The defaults of the parameters -/

/-- The handler's bus accesses of 40_execution_cycle.md R89's table, the second and third columns after the opcode
fetch. Bytes that are not listed make none. -/
def handlerAccesses : Cost :=
  [(0xA9#8, 1), (0xA2#8, 1), (0xA0#8, 1),
   (0x85#8, 2), (0x86#8, 2), (0x84#8, 2),
   (0x8D#8, 3), (0x8E#8, 3), (0x8C#8, 3)] ++
  [(0x48#8, 1), (0x08#8, 1), (0x68#8, 1), (0x28#8, 1)] ++
  [(0x4C#8, 2), (0x6C#8, 4), (0x20#8, 4), (0x60#8, 2)] ++
  [(0x00#8, 5), (0x40#8, 3)]

/-- The default COST (R89, D12) for a core with the given store modes: an opcode that R78 removes is unrecognized, and
an unrecognized opcode costs 1 (40_execution_cycle.md R97; log entry 7). -/
def Cost.standard (m : StoreModes) : Cost := handlerAccesses.filter fun r => opcodePresent m r.1

/-- The handler's units of an opcode byte: NOP's are none in every core (R89: fixed by the source, not by the parameter;
45_interrupt_nop.md R162). -/
def Cost.handlerUnits (c : Cost) (op : Byte) : Nat :=
  if op = 0xEA#8 then 0
  else
    match c.find? fun r => r.1 == op with
    | some r => r.2
    | none => 0

/-- COST of an opcode byte: 1 for the fetch, which no parameter changes, and the handler's units (R88, R89). -/
def Cost.of (c : Cost) (op : Byte) : Nat := 1 + c.handlerUnits op

/-- The default of every parameter (00_scope.md R8). -/
def Config.standard : Config where
  spReset := 0xFF#8
  resetPc := .zero
  unmappedWrite := .drop
  xyStoreModes := .all
  brkPcSkip := 1
  cost := Cost.standard .all

end Sys2Proof
end

