-- ==== Sys2Proof/Machine/State.lean ====
section
/-! DEFINITION. The machine's state as plain data (10_state.md R39), the reasons a step can stop, and the state after
reset (10_state.md R37). -/

namespace Sys2Proof.Machine

/-- The bytes a plain store holds: (offset, byte) cells with strictly rising offsets, none equal to `Memory.blank`, which
is what an offset that is not listed reads as (log entry 23). -/
abbrev Memory := List Host.Cell

/-- The state of one device (10_state.md R34), with the kind that says how it behaves: the reference devices of
20_memory.md R45. A store of n bytes is given by its last offset, n = last + 1, so it has at least one
byte (log entry 9). -/
inductive Device where
  | ram (last : Nat) (cells : Memory)
  | rom (last : Nat) (cells : Memory)
  /-- `kind` tells peripherals apart; `inner` stands for whatever a peripheral remembers. Both only feed the free values
  of Config (log entry 10). -/
  | peripheral (kind inner : Nat)
  deriving DecidableEq, Repr

/-- One entry (base, size, dev) of MAP (20_memory.md R40). `dev` is the device's identity, its place in
`State.devs`: two mappings with the same `dev` share one state (R44). -/
structure Mapping where
  base : Addr
  size : Nat
  dev  : Nat
  deriving DecidableEq, Repr

/-- The diagnostic event `UnknownOpcode(op, addr)` (40_execution_cycle.md R97). -/
structure UnknownOpcode where
  op   : Byte
  addr : Addr
  deriving DecidableEq, Repr

/-- The failure `UnmappedWrite(addr, value)` (20_memory.md R51). -/
structure UnmappedWrite where
  addr  : Addr
  value : Byte
  deriving DecidableEq, Repr

/-- The complete machine state (10_state.md R39): the CPU's registers, the device states, MAP, the two pieces of
bookkeeping of R36, and the parameters of 00_scope.md R8. -/
@[ext]
structure State where
  a      : Byte
  x      : Byte
  y      : Byte
  sp     : Byte
  p      : Byte
  pc     : Addr
  devs   : List Device
  map    : List Mapping
  trace  : List UnknownOpcode
  fault  : Option UnmappedWrite
  config : Config
  deriving DecidableEq, Repr

/-- Why the machine stops with a fault. -/
inductive Fault where
  /-- Raised by `step`, never by an instruction, in a state whose fault mark is set (60_exceptions.md R174: "every later
  `execute` call performs no step"). Safe: that state is the last of the run, as the spec says. -/
  | unmappedWrite (addr : Addr) (value : Byte)
  deriving DecidableEq, Repr

/-- Why the machine refuses. -/
inductive Refusal where
  /-- Raised by an arm of `exec` whose instruction has no meaning yet. Safe. No arm uses it in this model. -/
  | notModelled (mnemonic : String)
  deriving DecidableEq, Repr

/-- The value of PC at reset (R37, 70_reset_and_hazards.md R191): no memory is read. -/
def resetPcValue : ResetPc → Addr
  | .zero => 0x0000#16
  | .given v => v

/-- The state right after construction under the parameters `c` (R37; 70_reset_and_hazards.md R190). -/
def State.resetWith (c : Config) : State where
  a := 0x00#8
  x := 0x00#8
  y := 0x00#8
  sp := c.spReset
  p := 0x00#8
  pc := resetPcValue c.resetPc
  devs := []
  map := []
  trace := []
  fault := none
  config := c

/-- The state right after reset under the default parameters (log entries 1 to 7). -/
def State.reset : State := State.resetWith Config.standard

end Sys2Proof.Machine
end

