-- ==== Sys2Proof/Machine/Flags.lean ====
section
/-! DEFINITION. The status register P: its flags (10_state.md R26 to R28), the one flag computation of the core
(40_execution_cycle.md R93), and the pushed copy of P. -/

namespace Sys2Proof.Machine

/-- The eight flags of P (10_state.md R26). -/
inductive Flag where
  | carry
  | zero
  | interruptDisable
  | decimalMode
  | breakFlag
  | unused
  | overflow
  | negative
  deriving DecidableEq, Repr

/-- A flag's bit number in P (10_state.md R27; the spec's decision D2, log entry 13). -/
def Flag.bit : Flag → Nat
  | .carry => 0
  | .zero => 1
  | .interruptDisable => 2
  | .decimalMode => 3
  | .breakFlag => 4
  | .unused => 5
  | .overflow => 6
  | .negative => 7

/-- A flag's mask, the last column of R27's table. -/
def Flag.mask (f : Flag) : Byte := 1#8 <<< f.bit

/-- A flag of a status byte. -/
def getFlag (p : Byte) (f : Flag) : Bool := p.getLsbD f.bit

/-- A status byte with one flag written and the others kept. -/
def setFlag (p : Byte) (f : Flag) (b : Bool) : Byte := if b then p ||| f.mask else p &&& ~~~ f.mask

/-- The status byte after SetZN(v): Z says whether v is 0x00, N is bit 7 of v, no other bit changes (R93). -/
def withZN (v p : Byte) : Byte := setFlag (setFlag p .zero (v == 0x00#8)) .negative v.msb

/-- `SetZN(v)` (R93). -/
def setZN (v : Byte) (s : State) : State := { s with p := withZN v s.p }

/-- The byte PHP and BRK push: P with the Break bit set, bit 5 as it stands (43_stack.md R141; log entry 14). -/
def pushedStatus (p : Byte) : Byte := setFlag p .breakFlag true

end Sys2Proof.Machine
end

