-- ==== Sys2Proof/Machine/Ops.lean ====
section
/-! DEFINITION. The shared operations: plain stores, devices, the Bus, fetching, the stack, the trap entry and its
return, and the unrecognized opcode. -/

namespace Sys2Proof.Machine

/-! ### Plain stores -/

/-- What an offset that a store does not list reads as. The representation's choice, no rule: a store of any contents is a
list of its bytes that differ from this one (log entry 23). -/
def Memory.blank : Byte := 0x00#8

/-- The byte at an offset. -/
def Memory.read : Memory → Nat → Byte
  | [], _ => Memory.blank
  | (k, v) :: m, off => if k = off then v else Memory.read m off

/-- Add a cell in front of the first larger offset. -/
def Memory.insert (off : Nat) (v : Byte) : Memory → Memory
  | [] => [(off, v)]
  | (k, w) :: m => if off < k then (off, v) :: (k, w) :: m else (k, w) :: Memory.insert off v m

/-- Write the byte at an offset, keeping the canonical form: a blank byte is not listed. -/
def Memory.write (m : Memory) (off : Nat) (v : Byte) : Memory :=
  let others := m.filter fun c => c.1 != off
  if v = Memory.blank then others else Memory.insert off v others

/-- Offsets from `lo` on, strictly rising, none above `last`, no blank byte. -/
def Memory.wfFrom (last : Nat) : Nat → Memory → Bool
  | _, [] => true
  | lo, (k, v) :: m => decide (lo ≤ k) && decide (k ≤ last) && (v != Memory.blank) && Memory.wfFrom last (k + 1) m

/-- The canonical form of a store whose last offset is `last`: equal stores are equal lists. -/
def Memory.wf (last : Nat) (m : Memory) : Bool := Memory.wfFrom last 0 m

/-! ### Devices -/

/-- `devRead(d, off)` (20_memory.md R42, R45): a byte and the device's new state. -/
def Device.read (off : Nat) : Device → Byte × Device
  | .ram last m => (Memory.read m (off % (last + 1)), .ram last m)
  | .rom last m => (Memory.read m (off % (last + 1)), .rom last m)
  | .peripheral kind inner =>
    let r := Config.peripheralRead kind inner off
    (r.1, .peripheral kind r.2)

/-- `devWrite(d, off, v)` (20_memory.md R42, R45): the device's new state. -/
def Device.write (off : Nat) (v : Byte) : Device → Device
  | .ram last m => .ram last (Memory.write m (off % (last + 1)) v)
  | .rom last m => .rom last m
  | .peripheral kind inner => .peripheral kind (Config.peripheralWrite kind inner off v)

/-- The store of a device is in canonical form. -/
def Device.wf : Device → Bool
  | .ram last m => Memory.wf last m
  | .rom last m => Memory.wf last m
  | .peripheral _ _ => true

/-! ### The Bus -/

/-- `base <= a < base + size` in unbounded integers (20_memory.md R41). -/
def Mapping.contains (m : Mapping) (a : Addr) : Bool :=
  decide (m.base.toNat ≤ a.toNat) && decide (a.toNat < m.base.toNat + m.size)

/-- `match(a)`: the first mapping, in MAP order, that contains the address (20_memory.md R47). -/
def busMatch (map : List Mapping) (a : Addr) : Option Mapping := map.find? fun m => m.contains a

/-- The local offset a mapping gives an address (20_memory.md R43). -/
def Mapping.offset (m : Mapping) (a : Addr) : Nat := a.toNat - m.base.toNat

/-- The state of a device. A number that names no device (no host operation leaves one in MAP) stands for a peripheral of
which nothing is known (log entry 11). -/
def State.device (s : State) (id : Nat) : Device := s.devs.getD id (.peripheral id 0)

/-- Put a device's new state back. -/
def State.setDevice (id : Nat) (d : Device) (s : State) : State := { s with devs := s.devs.set id d }

/-- `MemRead(a, 1)` (20_memory.md R48): the byte, and the state after it. -/
def memRead (a : Addr) (s : State) : Byte × State :=
  match busMatch s.map a with
  | some m =>
    let r := (s.device m.dev).read (m.offset a)
    (r.1, s.setDevice m.dev r.2)
  | none => (0xFF#8, s)

/-- How an action that may write ends: it is done, or a write raised `UnmappedWrite` and the rest of the step is not
performed (40_execution_cycle.md R107). Both carry the state, since nothing is rolled back. -/
inductive Effect where
  | done (s : State)
  | raised (s : State)

/-- Go on after a finished action; do nothing more after a raise (R107). -/
def Effect.andThen (e : Effect) (k : State → Effect) : Effect :=
  match e with
  | .done s => k s
  | .raised s => .raised s

/-- The state an action ends in. -/
def Effect.state : Effect → State
  | .done s => s
  | .raised s => s

/-- The outcome of a step that ends so: a next state either way. After a raise its fault mark is set, and it is the last
state of the run (60_exceptions.md R174; log entry 4). -/
def Effect.outcome (e : Effect) : Host.Outcome State Fault Refusal := .next e.state

/-- Set the fault mark to `UnmappedWrite(a, v)` (60_exceptions.md R174). -/
def State.mark (a : Addr) (v : Byte) (s : State) : State := { s with fault := some ⟨a, v⟩ }

/-- `MemWrite(a, 1, v)` (20_memory.md R50, R51). -/
def memWrite (a : Addr) (v : Byte) (s : State) : Effect :=
  match busMatch s.map a with
  | some m => .done (s.setDevice m.dev ((s.device m.dev).write (m.offset a) v))
  | none =>
    match s.config.unmappedWrite with
    | .drop => .done s
    | .fault => .raised (s.mark a v)

/-! ### Fetching -/

/-- `Fetch8()` (40_execution_cycle.md R86). -/
def fetch8 (s : State) : Byte × State :=
  let r := memRead s.pc s
  (r.1, { r.2 with pc := s.pc + 1 })

/-- `Fetch16()` (R92): the low byte first. -/
def fetch16 (s : State) : Addr × State :=
  let lo := fetch8 s
  let hi := fetch8 lo.2
  (joinBytes hi.1 lo.1, hi.2)

/-- What a step fetches: an instruction with its operand, or an unrecognized opcode byte. -/
inductive Fetched where
  | instr (i : Instr)
  | unknown (op : Byte)
  deriving DecidableEq, Repr

/-- Fetch the opcode and then exactly the operand bytes its row has (R86, R87, R96; 30_encoding.md R76; log
entry 16). -/
def fetchInstr (s : State) : Fetched × State :=
  let op := fetch8 s
  match formOf s.config.xyStoreModes op.1 with
  | none => (.unknown op.1, op.2)
  | some (.f1 i) => (.instr i, op.2)
  | some (.f2 mk) =>
    let b := fetch8 op.2
    (.instr (mk b.1), b.2)
  | some (.f3 mk) =>
    let w := fetch16 op.2
    (.instr (mk w.1), w.2)

/-- Unrecognized opcode (R97): the event is appended to the trace, and nothing else happens. -/
def unknownOpcode (op : Byte) (opaddr : Addr) (s : State) : State := { s with trace := s.trace ++ [⟨op, opaddr⟩] }

/-! ### The stack -/

/-- The address of the stack byte an SP value designates (10_state.md R24). -/
def stackAddr (sp : Byte) : Addr := 0x0100#16 + zext16 sp

/-- `Push(v)` (40_execution_cycle.md R94): the write, then the decrement. -/
def push (v : Byte) (s : State) : Effect :=
  (memWrite (stackAddr s.sp) v s).andThen fun t => .done { t with sp := t.sp - 1 }

/-- `Pull()` (R95): the increment, then the read. -/
def pull (s : State) : Byte × State :=
  let t := { s with sp := s.sp + 1 }
  memRead (stackAddr t.sp) t

/-- Push a 16-bit value, the high byte first (44_jump_subroutine.md R152; 45_interrupt_nop.md R160). -/
def pushAddr (w : Addr) (s : State) : Effect := (push (hiByte w) s).andThen fun t => push (loByte w) t

/-- Pull a 16-bit value, the low byte first (44_jump_subroutine.md R153; 45_interrupt_nop.md R161). -/
def pullAddr (s : State) : Addr × State :=
  let lo := pull s
  let hi := pull lo.2
  (joinBytes hi.1 lo.1, hi.2)

/-! ### The trap entry and its return -/

/-- The Break vector (20_memory.md R58): the low byte's address. -/
def vectorLo : Addr := 0xFFFE#16

/-- The Break vector's high byte's address. -/
def vectorHi : Addr := 0xFFFF#16

/-- Load PC from the Break vector, the low byte first (45_interrupt_nop.md R160). -/
def loadVector (s : State) : State :=
  let lo := memRead vectorLo s
  let hi := memRead vectorHi lo.2
  { hi.2 with pc := joinBytes hi.1 lo.1 }

/-- The bytes BRK skips after its opcode, without reading them (R160; `BRK_PC_SKIP`, log entry 6). -/
def skipBreakBytes (s : State) : State := { s with pc := s.pc + BitVec.ofNat 16 s.config.brkPcSkip.val }

/-- Set InterruptDisable, and no other flag (R160). -/
def disableInterrupts (s : State) : State := { s with p := setFlag s.p .interruptDisable true }

/-- The core's only trap entry (45_interrupt_nop.md R160; 60_exceptions.md R175): PC past the skipped bytes is pushed, then P with Break
set; InterruptDisable is set; PC is loaded from the vector. -/
def takeBreak (s : State) : Effect :=
  let t := skipBreakBytes s
  (pushAddr t.pc t).andThen fun u =>
    (push (pushedStatus u.p) u).andThen fun w => .done (loadVector (disableInterrupts w))

/-- The return from the trap (45_interrupt_nop.md R161; 60_exceptions.md R176): P, all eight bits, then PC. -/
def returnFromBreak (s : State) : State :=
  let st := pull s
  let ret := pullAddr { st.2 with p := st.1 }
  { ret.2 with pc := ret.1 }

/-! ### Placing a program from outside -/

/-- Give one address a one-byte RAM of its own that holds `v`, in front of every other mapping (log entry 20). -/
def State.placeByte (a : Addr) (v : Byte) (s : State) : State :=
  { s with
    map := ⟨a, 1, s.devs.length⟩ :: s.map
    devs := s.devs ++ [.ram 0 (Memory.write [] 0 v)] }

/-- Place bytes at consecutive addresses, wrapping at 0xFFFF. -/
def State.placeBytes (a : Addr) : List Byte → State → State
  | [], s => s
  | v :: vs, s => State.placeBytes (a + 1) vs (s.placeByte a v)

end Sys2Proof.Machine
end

