-- ==== Sys2Proof/Machine/Operands.lean ====
section
/-! DEFINITION. The five addressing modes (40_execution_cycle.md R98 to R104) as the instruction's operand
gives them. The operand bytes themselves are fetched by `fetchInstr`, before any data access (R96). Implied (R98) has
no operand, and an immediate operand (R99) is the byte itself. -/

namespace Sys2Proof.Machine

/-- Zero-page: the effective address of the operand byte (R100). -/
def zeroPageAddr (zp : Byte) : Addr := zext16 zp

/-- Absolute: the operand is the effective address (R101). -/
def absoluteAddr (operand : Addr) : Addr := operand

/-- Where the indirect mode reads the target's high byte: the pointer with its low byte incremented within its page
(R104, the page-wrap quirk). -/
def pointerHighAddr (ptr : Addr) : Addr := (ptr &&& 0xFF00#16) ||| ((ptr + 1) &&& 0x00FF#16)

/-- Indirect: the target the pointer designates, low byte read first (R102 to R104). -/
def indirectTarget (ptr : Addr) (s : State) : Addr × State :=
  let lo := memRead ptr s
  let hi := memRead (pointerHighAddr ptr) lo.2
  (joinBytes hi.1 lo.1, hi.2)

end Sys2Proof.Machine
end

