-- ==== Sys2Proof/Machine/Interrupt.lean ====
section
/-! DEFINITION. Break, return from interrupt, no-operation (45_interrupt_nop.md R160 to R162). -/

namespace Sys2Proof.Machine

/-- BRK (R160): takes the trap, whatever P.I is (60_exceptions.md R172). -/
def execBrk (s : State) : Host.Outcome State Fault Refusal := (takeBreak s).outcome

/-- RTI (R161). -/
def execRti (s : State) : Host.Outcome State Fault Refusal := .next (returnFromBreak s)

/-- NOP (R162): PC was advanced by the fetch. -/
def execNop (s : State) : Host.Outcome State Fault Refusal := .next s

end Sys2Proof.Machine
end

