-- ==== Sys2Proof/Machine/Jump.lean ====
section
/-! DEFINITION. Jumps and subroutines (44_jump_subroutine.md R150 to R153), from the state after the operand fetch: PC
is the address after the instruction. -/

namespace Sys2Proof.Machine

/-- JMP abs (R150). -/
def execJmpAbs (target : Addr) (s : State) : Host.Outcome State Fault Refusal :=
  .next { s with pc := absoluteAddr target }

/-- JMP ind (R151). -/
def execJmpInd (ptr : Addr) (s : State) : Host.Outcome State Fault Refusal :=
  let r := indirectTarget ptr s
  .next { r.2 with pc := r.1 }

/-- JSR (R152): the address of JSR's last byte is pushed, then PC is the target. -/
def execJsr (target : Addr) (s : State) : Host.Outcome State Fault Refusal :=
  ((pushAddr (s.pc - 1) s).andThen fun t => .done { t with pc := absoluteAddr target }).outcome

/-- RTS (R153): one past the pulled address. -/
def execRts (s : State) : Host.Outcome State Fault Refusal :=
  let r := pullAddr s
  .next { r.2 with pc := r.1 + 1 }

end Sys2Proof.Machine
end

