-- ==== Sys2Proof/Machine/LoadStore.lean ====
section
/-! DEFINITION. Loads and stores (41_load_store.md R110 to R118), from the state after the operand fetch. -/

namespace Sys2Proof.Machine

/-- LDA # (R110). -/
def execLdaImm (imm : Byte) (s : State) : Host.Outcome State Fault Refusal := .next (setZN imm { s with a := imm })

/-- LDX # (R111). -/
def execLdxImm (imm : Byte) (s : State) : Host.Outcome State Fault Refusal := .next (setZN imm { s with x := imm })

/-- LDY # (R112). -/
def execLdyImm (imm : Byte) (s : State) : Host.Outcome State Fault Refusal := .next (setZN imm { s with y := imm })

/-- STA zp (R113). -/
def execStaZp (zp : Byte) (s : State) : Host.Outcome State Fault Refusal :=
  (memWrite (zeroPageAddr zp) s.a s).outcome

/-- STA abs (R114). -/
def execStaAbs (addr : Addr) (s : State) : Host.Outcome State Fault Refusal :=
  (memWrite (absoluteAddr addr) s.a s).outcome

/-- STX zp (R115). -/
def execStxZp (zp : Byte) (s : State) : Host.Outcome State Fault Refusal :=
  (memWrite (zeroPageAddr zp) s.x s).outcome

/-- STX abs (R116). -/
def execStxAbs (addr : Addr) (s : State) : Host.Outcome State Fault Refusal :=
  (memWrite (absoluteAddr addr) s.x s).outcome

/-- STY zp (R117). -/
def execStyZp (zp : Byte) (s : State) : Host.Outcome State Fault Refusal :=
  (memWrite (zeroPageAddr zp) s.y s).outcome

/-- STY abs (R118). -/
def execStyAbs (addr : Addr) (s : State) : Host.Outcome State Fault Refusal :=
  (memWrite (absoluteAddr addr) s.y s).outcome

end Sys2Proof.Machine
end

