-- ==== Sys2Proof/Machine/Stack.lean ====
section
/-! DEFINITION. Stack push and pull (43_stack.md R140 to R143). -/

namespace Sys2Proof.Machine

/-- PHA (R140). -/
def execPha (s : State) : Host.Outcome State Fault Refusal := (push s.a s).outcome

/-- PHP (R141): Break is set in the pushed byte only. -/
def execPhp (s : State) : Host.Outcome State Fault Refusal := (push (pushedStatus s.p) s).outcome

/-- PLA (R142). -/
def execPla (s : State) : Host.Outcome State Fault Refusal :=
  let r := pull s
  .next (setZN r.1 { r.2 with a := r.1 })

/-- PLP (R143): the whole byte, no flag derived. -/
def execPlp (s : State) : Host.Outcome State Fault Refusal :=
  let r := pull s
  .next { r.2 with p := r.1 }

end Sys2Proof.Machine
end

