-- ==== Sys2Proof/Machine/Transfer.lean ====
section
/-! DEFINITION. Register transfers (42_transfer.md R130 to R135). -/

namespace Sys2Proof.Machine

/-- TAX (R130). -/
def execTax (s : State) : Host.Outcome State Fault Refusal := .next (setZN s.a { s with x := s.a })

/-- TXA (R131). -/
def execTxa (s : State) : Host.Outcome State Fault Refusal := .next (setZN s.x { s with a := s.x })

/-- TAY (R132). -/
def execTay (s : State) : Host.Outcome State Fault Refusal := .next (setZN s.a { s with y := s.a })

/-- TYA (R133). -/
def execTya (s : State) : Host.Outcome State Fault Refusal := .next (setZN s.y { s with a := s.y })

/-- TSX (R134). -/
def execTsx (s : State) : Host.Outcome State Fault Refusal := .next (setZN s.sp { s with x := s.sp })

/-- TXS (R135): no flag is written. -/
def execTxs (s : State) : Host.Outcome State Fault Refusal := .next { s with sp := s.x }

end Sys2Proof.Machine
end

