-- ==== Sys2Proof/Machine/Step.lean ====
section
/-! DEFINITION. One step (40_execution_cycle.md R85, R87), and placing a word where the next step fetches. -/

namespace Sys2Proof.Machine

/-- One whole instruction (R87). In a state whose fault mark is set no step happens (60_exceptions.md R174). -/
def step (s : State) : Host.Outcome State Fault Refusal :=
  match s.fault with
  | some e => .fault (.unmappedWrite e.addr e.value)
  | none =>
    match fetchInstr s with
    | (.instr i, t) => exec i t
    | (.unknown op, t) => .next (unknownOpcode op s.pc t)

/-- `s` with the bytes of a table word at PC, PC + 1 and PC + 2, each in a one-byte RAM attached in front of MAP, so that
the very next step fetches exactly them, whatever stood there (log entry 20). -/
def State.withFetchWord (s : State) (nbits w : Nat) : State := s.placeBytes s.pc (tableBytes nbits w)

end Sys2Proof.Machine
end

