-- ==== Sys2Proof/Machine/Execute.lean ====
section
/-! DEFINITION. The budget loop `execute(budget)` (40_execution_cycle.md R88 to R91). -/

namespace Sys2Proof.Machine

/-- COST of the opcode the next step fetches (R88). -/
def nextCost (s : State) : Nat := s.config.cost.of (memRead s.pc s).1

/-- The loop of R88 with the budget left at its end: while the budget is above 0 and no fault mark is set, one step and
its COST. `fuel` only makes the recursion structural; `execute` gives it one unit per budget unit, which is enough because
every COST is at least 1. -/
def executeLoop : Nat → Int → State → Int × State
  | 0, budget, s => (budget, s)
  | fuel + 1, budget, s =>
    if 0 < budget ∧ s.fault = none then
      match step s with
      | .next t => executeLoop fuel (budget - (nextCost s : Int)) t
      | .fault _ => (budget, s)
      | .refused _ => (budget, s)
    else (budget, s)

/-- `execute(budget)` with the budget left (zero or negative, unless a fault mark ended it), which the core discards
(R91). -/
def executeLeft (budget : Int) (s : State) : Int × State := executeLoop budget.toNat budget s

/-- `execute(budget)` (R88): the state it leaves. -/
def execute (budget : Int) (s : State) : State := (executeLeft budget s).2

end Sys2Proof.Machine
end

