-- ==== Sys2Proof/Machine/Session.lean ====
section
/-! DEFINITION. The host operations (20_memory.md R60 to R66; 60_exceptions.md R184) and a session of them. -/

namespace Sys2Proof.Machine

/-- `CPU.read(a)` is `MemRead(a, 1)` (20_memory.md R60). -/
def cpuRead (a : Addr) (s : State) : Byte × State := memRead a s

/-- `CPU.write(a, v)` is `MemWrite(a, 1, v)` (R60). A raise sets the fault mark (60_exceptions.md R174). -/
def cpuWrite (a : Addr) (v : Byte) (s : State) : State := (memWrite a v s).state

/-- The writes of `load_program` in order, stopping at the first that raises (R61, R62). -/
def loadBytes (start : Addr) : List Byte → State → Effect
  | [], s => .done s
  | v :: vs, s => (memWrite start v s).andThen fun t => loadBytes (start + 1) vs t

/-- `load_program(bytes, start)` (R61, R62). It does not set PC. -/
def loadProgram (bytes : List Byte) (start : Addr) (s : State) : State := (loadBytes start bytes s).state

/-- The device an `attach` names: one the host has just made, or one that is already attached somewhere (R44: it is
referenced, never copied). -/
inductive DeviceRef where
  | fresh (d : Device)
  | attached (id : Nat)
  deriving DecidableEq, Repr

/-- `attach(base, size, dev)` appends to MAP, with no validation (R46). A fresh device joins the device states. -/
def attach (base : Addr) (size : Nat) (dev : DeviceRef) (s : State) : State :=
  match dev with
  | .fresh d => { s with map := s.map ++ [⟨base, size, s.devs.length⟩], devs := s.devs ++ [d] }
  | .attached id => { s with map := s.map ++ [⟨base, size, id⟩] }

/-- A call the host makes (60_exceptions.md R184). -/
inductive HostCall where
  | attach (base : Addr) (size : Nat) (dev : DeviceRef)
  | read (a : Addr)
  | write (a : Addr) (v : Byte)
  | loadProgram (bytes : List Byte) (start : Addr)
  | execute (budget : Int)
  deriving DecidableEq, Repr

/-- What one call does: the byte a read gives back, and the state after the call. -/
def hostCall (c : HostCall) (s : State) : Option Byte × State :=
  match c with
  | .attach base size dev => (none, attach base size dev s)
  | .read a => (some (cpuRead a s).1, (cpuRead a s).2)
  | .write a v => (none, cpuWrite a v s)
  | .loadProgram bytes start => (none, loadProgram bytes start s)
  | .execute budget => (none, execute budget s)

/-- The calls of a session one after another (R65: they never overlap), and the bytes its reads gave back. -/
def runCalls : List HostCall → State → List Byte × State
  | [], s => ([], s)
  | c :: cs, s =>
    let r := hostCall c s
    let rest := runCalls cs r.2
    (r.1.toList ++ rest.1, rest.2)

/-- The calls the spec admits: MAP is fixed from the first `execute` on (R63; D22), so no `attach` follows one. -/
def admissible : List HostCall → Bool
  | [] => true
  | .execute _ :: cs => cs.all fun c =>
      match c with
      | .attach _ _ _ => false
      | .read _ => true
      | .write _ _ => true
      | .loadProgram _ _ => true
      | .execute _ => true
  | .attach _ _ _ :: cs => admissible cs
  | .read _ :: cs => admissible cs
  | .write _ _ :: cs => admissible cs
  | .loadProgram _ _ :: cs => admissible cs

end Sys2Proof.Machine
end

