-- ==== Sys2Proof/Safety.lean ====
section
/-! DEFINITION. The terms claims are stated in: what a bus read sees, when a write completes and what it leaves, which
addresses share a byte, the bytes a fetch takes, and the invariant of a well-formed state. -/

namespace Sys2Proof.Machine

/-! ### Reads and writes -/

/-- The byte a bus read at `a` gives. -/
def peek (a : Addr) (s : State) : Byte := (memRead a s).1

/-- The state after a bus read at `a` (a peripheral may have changed, 20_memory.md R42). -/
def afterRead (a : Addr) (s : State) : State := (memRead a s).2

/-- A write at `a` raises nothing: some mapping contains `a`, or the policy is Drop (20_memory.md R50, R51). -/
def storeOk (s : State) (a : Addr) : Bool := (busMatch s.map a).isSome || (s.config.unmappedWrite == .drop)

/-- The state a write that raises nothing leaves: the first matching device has taken the byte, or nothing has changed
(20_memory.md R50, R51). -/
def stored (a : Addr) (v : Byte) (s : State) : State :=
  match busMatch s.map a with
  | some m => { s with devs := s.devs.set m.dev ((s.device m.dev).write (a.toNat - m.base.toNat) v) }
  | none => s

/-! ### Which byte an address reaches -/

/-- The device an address reaches. -/
def deviceAt (s : State) (a : Addr) : Option Device := (busMatch s.map a).map fun m => s.device m.dev

/-- The address reaches a RAM. -/
def isRam (s : State) (a : Addr) : Bool :=
  match deviceAt s a with
  | some (.ram _ _) => true
  | some (.rom _ _) => false
  | some (.peripheral _ _) => false
  | none => false

/-- The address reaches a ROM. -/
def isRom (s : State) (a : Addr) : Bool :=
  match deviceAt s a with
  | some (.ram _ _) => false
  | some (.rom _ _) => true
  | some (.peripheral _ _) => false
  | none => false

/-- The address reaches a peripheral. -/
def isPeripheral (s : State) (a : Addr) : Bool :=
  match deviceAt s a with
  | some (.ram _ _) => false
  | some (.rom _ _) => false
  | some (.peripheral _ _) => true
  | none => false

/-- Where an address's byte is held: the device, and the masked offset in a RAM or ROM. All of a peripheral is one place,
since an access at one offset may change what another offset reads. -/
def busSite (s : State) (a : Addr) : Option (Nat × Nat) :=
  (busMatch s.map a).map fun m =>
    match s.device m.dev with
    | .ram last _ => (m.dev, (a.toNat - m.base.toNat) % (last + 1))
    | .rom last _ => (m.dev, (a.toNat - m.base.toNat) % (last + 1))
    | .peripheral _ _ => (m.dev, 0)

/-- Two addresses reach the same place (one device, attached twice or masking its offset, 20_memory.md R44, R45). -/
def sameSite (s : State) (a b : Addr) : Bool := (busSite s a).isSome && (busSite s a == busSite s b)

/-! ### What an instruction accesses after its operand fetch -/

/-- The addresses an instruction stores to, in order. -/
def writeAddrs (i : Instr) (s : State) : List Addr :=
  match i with
  | .staZp zp => [zeroPageAddr zp]
  | .stxZp zp => [zeroPageAddr zp]
  | .styZp zp => [zeroPageAddr zp]
  | .staAbs addr => [absoluteAddr addr]
  | .stxAbs addr => [absoluteAddr addr]
  | .styAbs addr => [absoluteAddr addr]
  | .pha => [stackAddr s.sp]
  | .php => [stackAddr s.sp]
  | .jsr _ => [stackAddr s.sp, stackAddr (s.sp - 1)]
  | .brk => [stackAddr s.sp, stackAddr (s.sp - 1), stackAddr (s.sp - 2)]
  | .ldaImm _ => []
  | .ldxImm _ => []
  | .ldyImm _ => []
  | .tax => []
  | .txa => []
  | .tay => []
  | .tya => []
  | .tsx => []
  | .txs => []
  | .pla => []
  | .plp => []
  | .jmpAbs _ => []
  | .jmpInd _ => []
  | .rts => []
  | .rti => []
  | .nop => []

/-- The addresses an instruction reads after its operand fetch, in order. -/
def readAddrs (i : Instr) (s : State) : List Addr :=
  match i with
  | .pla => [stackAddr (s.sp + 1)]
  | .plp => [stackAddr (s.sp + 1)]
  | .jmpInd ptr => [ptr, pointerHighAddr ptr]
  | .rts => [stackAddr (s.sp + 1), stackAddr (s.sp + 2)]
  | .rti => [stackAddr (s.sp + 1), stackAddr (s.sp + 2), stackAddr (s.sp + 3)]
  | .brk => [vectorLo, vectorHi]
  | .ldaImm _ => []
  | .ldxImm _ => []
  | .ldyImm _ => []
  | .staZp _ => []
  | .staAbs _ => []
  | .stxZp _ => []
  | .stxAbs _ => []
  | .styZp _ => []
  | .styAbs _ => []
  | .tax => []
  | .txa => []
  | .tay => []
  | .tya => []
  | .tsx => []
  | .txs => []
  | .pha => []
  | .php => []
  | .jmpAbs _ => []
  | .jsr _ => []
  | .nop => []

/-! ### Fetched bytes and repeated instructions -/

/-- The bytes `n` successive Fetch8 take, and the state after them (40_execution_cycle.md R86). -/
def fetchBytes : Nat → State → List Byte × State
  | 0, s => ([], s)
  | n + 1, s =>
    let b := fetch8 s
    let rest := fetchBytes n b.2
    (b.1 :: rest.1, rest.2)

/-- The state after executing one instruction `n` times, if each answers a next state. -/
def repeatExec (i : Instr) : Nat → State → Option State
  | 0, s => some s
  | n + 1, s =>
    match exec i s with
    | .next t => repeatExec i n t
    | .fault _ => none
    | .refused _ => none

/-- The state after `n` steps, if each answers a next state. -/
def stepMany : Nat → State → Option State
  | 0, s => some s
  | n + 1, s =>
    match step s with
    | .next t => stepMany n t
    | .fault _ => none
    | .refused _ => none

/-! ### Flags -/

/-- `q` is the status byte after SetZN(v) from `p` (40_execution_cycle.md R93): Z iff v is 0x00, N is bit 7 of v, and the
other six flags as in `p`. -/
def ZNFrom (v p q : Byte) : Prop :=
  getFlag q .zero = decide (v = 0x00#8) ∧
  getFlag q .negative = v.getLsbD 7 ∧
  ∀ f : Flag, f ≠ .zero → f ≠ .negative → getFlag q f = getFlag p f

/-! ### Comparing two runs -/

/-- `u` and `t`, both reached from states that differ in P alone and share the MAP and device kinds of `s`, agree on
everything but P, PC, the value (not the address) a fault mark holds, and what the address `a` reaches: no device but the
one at `a` differs, and no byte but the one at `a` reads differently. -/
def AgreeButStatusAt (s : State) (a : Addr) (t u : State) : Prop :=
  u = { t with p := u.p, pc := u.pc, devs := u.devs, fault := u.fault } ∧
  (u.fault.map fun e => e.addr) = (t.fault.map fun e => e.addr) ∧
  u.devs.length = t.devs.length ∧
  (∀ id, (∀ m, busMatch s.map a = some m → id ≠ m.dev) → u.device id = t.device id) ∧
  ∀ b, sameSite s a b = false → peek b u = peek b t

/-! ### The invariant -/

/-- A well-formed state: `SP_RESET` is not 0x00 (00_scope.md R8); every mapping's size is at most 65536 and names a device
there is (20_memory.md R40); every plain store is canonical; and a fault mark is set only under the Fault policy
(10_state.md R36). -/
def State.inv (s : State) : Bool :=
  s.config.wf &&
  s.map.all (fun m => decide (m.size ≤ 65536) && decide (m.dev < s.devs.length)) &&
  s.devs.all Device.wf &&
  (s.fault.isNone || (s.config.unmappedWrite == .fault))

/-- A quiet state: no fault mark and no diagnostic event. A claim about a program that must run neither into an unmapped
write nor into an unrecognized opcode takes this of its last state (93_implementation_defined.md A1, A12). -/
def State.quiet (s : State) : Bool := s.fault.isNone && s.trace.isEmpty

end Sys2Proof.Machine
end

