-- ==== Sys2Proof/Certificates/Slice0/Obligations.lean ====
section
/-! DEFINITION. The statements for the provers. Every statement is about every state, so it holds for every value of the
parameters of 00_scope.md R8 (they are fields of the state) and for every device. Statements that name an opcode byte,
a flag's bit number or another decision of the spec (92_eei_decisions.md) have basis 'derived'. -/

open Sys2Proof Sys2Proof.Machine

/-! ### The Bus and the devices -/

/-- 20_memory.md R47, with the containment in unbounded integers of R41 (the spec's decision D9, log entry 8): dispatch takes the first mapping, in MAP order, whose range contains the address, and none if no range does; a later
mapping is never reached at an address that an earlier one contains. -/
def Obligations.BusDispatchTakesFirstMatch : Prop :=
  (∀ (map : List Mapping) (a : Addr) (m : Mapping),
    busMatch map a = some m ↔
      ∃ earlier later, map = earlier ++ m :: later ∧
        (m.base.toNat ≤ a.toNat ∧ a.toNat < m.base.toNat + m.size) ∧
        ∀ e ∈ earlier, ¬ (e.base.toNat ≤ a.toNat ∧ a.toNat < e.base.toNat + e.size)) ∧
  (∀ (map : List Mapping) (a : Addr),
    busMatch map a = none ↔ ∀ e ∈ map, ¬ (e.base.toNat ≤ a.toNat ∧ a.toNat < e.base.toNat + e.size)) ∧
  (∀ (map later : List Mapping) (a : Addr) (e : Mapping),
    e ∈ map → e.base.toNat ≤ a.toNat → a.toNat < e.base.toNat + e.size → busMatch (map ++ later) a = busMatch map a)

/-- R48 and R49: a mapped read asks the first matching device at offset `a - base` and keeps the device's new state, nothing
else changing; an unmapped read gives 0xFF and changes nothing at all (no fault mark, no event). -/
def Obligations.BusReadFollowsDispatch : Prop :=
  ∀ (s : State) (a : Addr),
    (∀ m, busMatch s.map a = some m →
      memRead a s =
        (((s.device m.dev).read (a.toNat - m.base.toNat)).1,
         { s with devs := s.devs.set m.dev ((s.device m.dev).read (a.toNat - m.base.toNat)).2 })) ∧
    (busMatch s.map a = none → memRead a s = (0xFF#8, s))

/-- R50: a mapped write gives the byte to the first matching device at offset `a - base`, and to no other device. -/
def Obligations.BusWriteReachesFirstMatchOnly : Prop :=
  ∀ (s : State) (a : Addr) (v : Byte) (m : Mapping), busMatch s.map a = some m →
    ∃ t, memWrite a v s = .done t ∧
      t = { s with devs := s.devs.set m.dev ((s.device m.dev).write (a.toNat - m.base.toNat) v) } ∧
      ∀ other, other ≠ m.dev → t.device other = s.device other

/-- 20_memory.md R51 (the spec's decision D8, log entry 4): an unmapped write under Drop changes nothing; under Fault it raises,
and all it changes is the fault mark. -/
def Obligations.UnmappedWriteFollowsPolicy : Prop :=
  ∀ (s : State) (a : Addr) (v : Byte), busMatch s.map a = none →
    (s.config.unmappedWrite = .drop → memWrite a v s = .done s) ∧
    (s.config.unmappedWrite = .fault → memWrite a v s = .raised { s with fault := some ⟨a, v⟩ })

/-- 20_memory.md R52: a bus access reaches at most one device: the first matching one (whose byte a read gives, from that device's
state alone), and no other device changes; with no match no device changes. -/
def Obligations.EachAccessReachesOneDevice : Prop :=
  ∀ (s : State) (a : Addr) (v : Byte),
    (∀ m, busMatch s.map a = some m →
      (memRead a s).1 = ((s.device m.dev).read (a.toNat - m.base.toNat)).1 ∧
      ∀ other, other ≠ m.dev →
        (memRead a s).2.device other = s.device other ∧ (memWrite a v s).state.device other = s.device other) ∧
    (busMatch s.map a = none → (memRead a s).2.devs = s.devs ∧ (memWrite a v s).state.devs = s.devs) ∧
    (memRead a s).2.devs.length = s.devs.length ∧ (memWrite a v s).state.devs.length = s.devs.length

/-- 20_memory.md R44, with the RAM of R45 (D15): a device attached by two mappings has one state. A write through one mapping is what a read through the other
sees (for a RAM, at the same masked offset: the byte written), and attaching a device again copies nothing. -/
def Obligations.SharedDeviceHasOneState : Prop :=
  (∀ (s : State) (a b : Addr) (v : Byte) (ma mb : Mapping),
    busMatch s.map a = some ma → busMatch s.map b = some mb → ma.dev = mb.dev → ma.dev < s.devs.length →
    (memRead b (memWrite a v s).state).1 =
        (((s.device ma.dev).write (a.toNat - ma.base.toNat) v).read (b.toNat - mb.base.toNat)).1 ∧
    ∀ last cells, s.device ma.dev = .ram last cells →
      (a.toNat - ma.base.toNat) % (last + 1) = (b.toNat - mb.base.toNat) % (last + 1) →
      (memRead b (memWrite a v s).state).1 = v) ∧
  (∀ (s : State) (base : Addr) (size id : Nat), (attach base size (.attached id) s).devs = s.devs)

/-- 20_memory.md R67 and DOC's property P1 (95_test_vectors.md 1.1), for the RAM of R45 (D15): a byte written to an address that
reaches a RAM is the byte a read there gives, at that address and at every other address of the same RAM byte. -/
def Obligations.RamReadGivesLastWrite : Prop :=
  ∀ (s : State) (a b : Addr) (v : Byte), isRam s a = true → sameSite s a b = true →
    ∃ t, memWrite a v s = .done t ∧ peek a t = v ∧ peek b t = v

/-- 20_memory.md R50 and R52 with the devices of R45 (D15): a write leaves every byte alone that is not the byte written (for a
peripheral, that is not in the peripheral). -/
def Obligations.WriteLeavesOtherBytes : Prop :=
  ∀ (s : State) (a b : Addr) (v : Byte), sameSite s a b = false → peek b (memWrite a v s).state = peek b s

/-- 20_memory.md R45 and R57 (D15, D19): a read of a RAM, a ROM or an unmapped address changes nothing, and a write to a ROM is
done, raises nothing and changes nothing. -/
def Obligations.PlainReadsAndRomWritesChangeNothing : Prop :=
  ∀ (s : State) (a : Addr) (v : Byte),
    (isPeripheral s a = false → (memRead a s).2 = s) ∧
    (isRom s a = true → memWrite a v s = .done s)

/-! ### Host operations -/

/-- 20_memory.md R62, with addresses modulo 65536 (R61's decision D21, log entry 19) and the mark a raise sets, over an earlier
one too (60_exceptions.md R174, D8; log entries 4 and 19): `load_program` is not atomic. Under Drop every byte is written in turn, the unmapped ones being dropped. Under Fault
the first unmapped byte raises: the bytes before it stay written, those after it are not. -/
def Obligations.LoadProgramIsNotAtomic : Prop :=
  (∀ (s : State) (v : Byte) (rest : List Byte) (start : Addr), s.config.unmappedWrite = .drop →
    loadProgram [] start s = s ∧
    loadProgram (v :: rest) start s = loadProgram rest (start + 1) (stored start v s)) ∧
  (∀ (s : State) (before : List Byte) (v : Byte) (after : List Byte) (start : Addr),
    s.config.unmappedWrite = .fault →
    (∀ k, k < before.length → (busMatch s.map (start + BitVec.ofNat 16 k)).isSome) →
    busMatch s.map (start + BitVec.ofNat 16 before.length) = none →
    loadProgram (before ++ v :: after) start s =
      { loadProgram before start s with fault := some ⟨start + BitVec.ofNat 16 before.length, v⟩ })

/-- 20_memory.md R61 (D21) on the standard map of 95_test_vectors.md section 0, one RAM over the whole space: after `load_program` byte i
reads back at start + i modulo 65536, every other address reads as before, and no register has changed. -/
def Obligations.LoadProgramFillsRam : Prop :=
  ∀ (s : State) (id : Nat) (cells : Memory) (bytes : List Byte) (start : Addr),
    s.map = [⟨0x0000#16, 65536, id⟩] → s.device id = .ram 65535 cells → bytes.length ≤ 65536 →
    ∃ devs, loadProgram bytes start s = { s with devs := devs } ∧
      (∀ (k : Nat) (h : k < bytes.length),
        peek (start + BitVec.ofNat 16 k) (loadProgram bytes start s) = bytes[k]) ∧
      (∀ b : Addr, (∀ k, k < bytes.length → b ≠ start + BitVec.ofNat 16 k) →
        peek b (loadProgram bytes start s) = peek b s)

/-- R60, with 20_memory.md section 6 on the registers: the host's read is the Bus's read and its write the Bus's write, no host operation but `execute` changes a
register, and what such an operation does and gives back does not depend on any register. -/
def Obligations.HostOperationsDoNotTouchRegisters : Prop :=
  (∀ (s : State) (a : Addr) (v : Byte),
    hostCall (.read a) s = (some (memRead a s).1, (memRead a s).2) ∧
    hostCall (.write a v) s = (none, (memWrite a v s).state)) ∧
  (∀ (s : State) (c : HostCall) (a x y sp p : Byte) (pc : Addr), (∀ b, c ≠ .execute b) →
    hostCall c { s with a := a, x := x, y := y, sp := sp, p := p, pc := pc } =
      ((hostCall c s).1,
       { (hostCall c s).2 with a := a, x := x, y := y, sp := sp, p := p, pc := pc }))

/-- 20_memory.md R63 (D22) with R46 and R65: in an admissible session MAP no longer changes once `execute` has been called; `attach` is
the only operation that changes it, by appending one mapping of the device it is given (one attached before, or a fresh one, which
joins the devices); and a mapping is never lost. -/
def Obligations.MapIsFixedOnceExecuting : Prop :=
  (∀ (cs : List HostCall) (b : Int) (s : State), admissible (.execute b :: cs) = true →
    (runCalls (.execute b :: cs) s).2.map = s.map) ∧
  (∀ (s : State) (c : HostCall), (∀ base size r, c ≠ .attach base size r) → (hostCall c s).2.map = s.map) ∧
  (∀ (s : State) (base : Addr) (size id : Nat),
    attach base size (.attached id) s = { s with map := s.map ++ [⟨base, size, id⟩] }) ∧
  (∀ (s : State) (base : Addr) (size : Nat) (d : Device),
    attach base size (.fresh d) s =
      { s with map := s.map ++ [⟨base, size, s.devs.length⟩], devs := s.devs ++ [d] } ∧
    (attach base size (.fresh d) s).device s.devs.length = d ∧
    ∀ id, id < s.devs.length → (attach base size (.fresh d) s).device id = s.device id) ∧
  (∀ (cs : List HostCall) (s : State), ∃ added, (runCalls cs s).2.map = s.map ++ added)

/-! ### Encoding -/

/-- 30_encoding.md R73, R75, R83 (opcode bytes: D3, log entry 12): decoding the encoding of a well-formed instruction, whatever
bytes follow, gives the instruction back with exactly those bytes left. -/
def Obligations.DecodeOfEncodeIsIdentity : Prop :=
  ∀ (m : StoreModes) (i : Instr) (rest : List Byte), Instr.wf m i = true → decode m (encode i ++ rest) = .instr i rest

/-- 30_encoding.md R70 to R78 (D3): the other direction. What decodes to an instruction is that instruction's encoding and
nothing else, and the instruction is well-formed: no operand bit is dropped or made up. -/
def Obligations.DecodedBytesAreTheEncoding : Prop :=
  ∀ (m : StoreModes) (bytes : List Byte) (i : Instr) (rest : List Byte),
    decode m bytes = .instr i rest → Instr.wf m i = true ∧ bytes = encode i ++ rest

/-- 30_encoding.md R75 to R78 (D3, D5): the decoder is total on opcodes. A byte begins the encoding of a well-formed instruction
or it is unrecognized, alone and with length 1, never both; with both store modes 230 bytes are unrecognized. -/
def Obligations.EveryOpcodeIsARowOrUnrecognized : Prop :=
  (∀ (m : StoreModes) (op : Byte) (rest : List Byte),
    decode m (op :: rest) = .unknown op rest ↔ ¬ ∃ i, Instr.wf m i = true ∧ (encode i).head? = some op) ∧
  ((List.range 256).countP fun n => (formOf .all (BitVec.ofNat 8 n)).isNone) = 230

/-- Words written out from 30_encoding.md R71 and R73 decode to the instructions they stand for (D3; a sanity check). -/
def Obligations.SampleBytesDecode : Prop :=
  decode .all [0xA9#8, 0x41#8] = .instr (.ldaImm 0x41#8) [] ∧
  decode .all [0x8D#8, 0x00#8, 0x02#8] = .instr (.staAbs 0x0200#16) [] ∧
  decode .all [0x84#8, 0xFF#8] = .instr (.styZp 0xFF#8) [] ∧
  decode .all [0xBA#8] = .instr .tsx [] ∧
  decode .all [0x28#8] = .instr .plp [] ∧
  decode .all [0x6C#8, 0xFF#8, 0x01#8] = .instr (.jmpInd 0x01FF#16) [] ∧
  decode .all [0x20#8, 0x00#8, 0x06#8] = .instr (.jsr 0x0600#16) [] ∧
  decode .all [0x00#8, 0xEA#8] = .instr .brk [0xEA#8] ∧
  decode .all [0x69#8, 0x01#8] = .unknown 0x69#8 [0x01#8]

/-- R72: an immediate operand is the byte as it is, a zero-page operand the address 0x0000 to 0x00FF of that byte, an absolute or
pointer operand the address whose low byte comes first; nothing is sign-extended, scaled or shifted. -/
def Obligations.OperandsAreAssembledUnchanged : Prop :=
  (∀ (m : StoreModes) (op b1 : Byte) (mk : Byte → Instr) (rest : List Byte), formOf m op = some (.f2 mk) →
    decode m (op :: b1 :: rest) = .instr (mk b1) rest) ∧
  (∀ (m : StoreModes) (op lo hi : Byte) (mk : Addr → Instr) (rest : List Byte), formOf m op = some (.f3 mk) →
    ∃ w : Addr, w.toNat = hi.toNat * 256 + lo.toNat ∧ decode m (op :: lo :: hi :: rest) = .instr (mk w) rest) ∧
  (∀ zp : Byte, (zeroPageAddr zp).toNat = zp.toNat ∧ (zeroPageAddr zp).toNat ≤ 0x00FF) ∧
  (∀ w : Addr, absoluteAddr w = w)

/-! ### The cycle and its helpers -/

/-- R86 and R92: Fetch8 is one bus read at PC and PC + 1 modulo 65536 (from 0xFFFF to 0x0000); Fetch16 takes the low byte
first and then the high byte; and all a step fetches, opcode and operand bytes, is one to three Fetch8. -/
def Obligations.FetchReadsAtPcAndAdvances : Prop :=
  (∀ s : State, fetch8 s = (peek s.pc s, { afterRead s.pc s with pc := s.pc + 1 })) ∧
  (∀ s : State, s.pc = 0xFFFF#16 → (fetch8 s).2.pc = 0x0000#16) ∧
  (∀ s : State, ∃ lo hi : Byte, (fetchBytes 2 s).1 = [lo, hi] ∧
    (fetch16 s).1.toNat = hi.toNat * 256 + lo.toNat ∧ (fetch16 s).2 = (fetchBytes 2 s).2) ∧
  (∀ s : State, ∃ n, 1 ≤ n ∧ n ≤ 3 ∧ (fetchInstr s).2 = (fetchBytes n s).2)

/-- R93: SetZN(v) sets Z iff v is 0x00 and N to bit 7 of v, keeps the other six flags, and touches nothing but P. -/
def Obligations.SetZNWritesOnlyZeroAndNegative : Prop :=
  ∀ (s : State) (v : Byte), ∃ q, setZN v s = { s with p := q } ∧ ZNFrom v s.p q

/-- R94 and R95: Push writes at 0x0100 + SP and then decrements SP (where the write raises nothing); Pull increments SP and then
reads at 0x0100 + SP. From SP = 0x00 a push goes to 0x0100 and leaves 0xFF; from SP = 0xFF a pull reads 0x0100 and
leaves 0x00. -/
def Obligations.PushAndPullFollowTheStackPointer : Prop :=
  (∀ (s : State) (v : Byte), storeOk s (0x0100#16 + zext16 s.sp) = true →
    push v s = .done { stored (0x0100#16 + zext16 s.sp) v s with sp := s.sp - 1 }) ∧
  (∀ s : State,
    (pull s).1 = peek (0x0100#16 + zext16 (s.sp + 1)) s ∧
    (pull s).2 = { afterRead (0x0100#16 + zext16 (s.sp + 1)) s with sp := s.sp + 1 }) ∧
  (∀ (s : State) (v : Byte), s.sp = 0x00#8 → storeOk s 0x0100#16 = true →
    push v s = .done { stored 0x0100#16 v s with sp := 0xFF#8 }) ∧
  (∀ s : State, s.sp = 0xFF#8 → (pull s).1 = peek 0x0100#16 s ∧ (pull s).2.sp = 0x00#8)

/-- 10_state.md R24: the stack byte SP designates is at 0x0100 + SP, always in the page 0x0100 to 0x01FF, for every SP. -/
def Obligations.StackByteStaysInStackPage : Prop :=
  ∀ sp : Byte, (stackAddr sp).toNat = 0x0100 + sp.toNat ∧ 0x0100 ≤ (stackAddr sp).toNat ∧ (stackAddr sp).toNat ≤ 0x01FF

/-- R103 and R104: the indirect target's low byte is read at the pointer, then its high byte at the pointer with only the low
byte incremented, within the pointer's page: at `ptr & 0xFF00` if the low byte is 0xFF, at `ptr + 1` otherwise. -/
def Obligations.IndirectTargetWrapsInThePointersPage : Prop :=
  (∀ ptr : Addr,
    (pointerHighAddr ptr).toNat = (ptr.toNat / 256) * 256 + (ptr.toNat + 1) % 256 ∧
    (ptr.toNat % 256 = 0xFF → pointerHighAddr ptr = ptr &&& 0xFF00#16) ∧
    (ptr.toNat % 256 ≠ 0xFF → pointerHighAddr ptr = ptr + 1)) ∧
  (∀ (ptr : Addr) (s : State),
    (indirectTarget ptr s).1.toNat = (peek (pointerHighAddr ptr) (afterRead ptr s)).toNat * 256 + (peek ptr s).toNat ∧
    (indirectTarget ptr s).2 = afterRead (pointerHighAddr ptr) (afterRead ptr s))

/-- 40_execution_cycle.md R97 (D16): an unrecognized opcode adds the event (opcode, its address) to the end of the trace and moves PC
past that one byte; no register, flag or fault mark changes. -/
def Obligations.UnrecognizedOpcodeOnlyAddsAnEvent : Prop :=
  ∀ s : State, s.fault = none → formOf s.config.xyStoreModes (peek s.pc s) = none →
    step s = .next { afterRead s.pc s with
      pc := s.pc + 1
      trace := s.trace ++ [⟨peek s.pc s, s.pc⟩] }

/-- 40_execution_cycle.md R85 to R87 and R96 (opcode bytes: D3): in a state without a fault mark, if the bytes fetched at PC are the
encoding of a well-formed instruction, the step is that instruction's meaning from the state after exactly those fetches. -/
def Obligations.StepRunsTheFetchedInstruction : Prop :=
  ∀ (s : State) (i : Instr), s.fault = none → Instr.wf s.config.xyStoreModes i = true →
    (fetchBytes (encode i).length s).1 = encode i →
    step s = exec i (fetchBytes (encode i).length s).2

/-- The same where the instruction stands in memory whose reads change nothing (RAM, ROM, unmapped): the step is the meaning from the
state with only PC moved past the instruction, wrapping at 0xFFFF (40_execution_cycle.md R85 to R87, R106; D3). -/
def Obligations.StepRunsTheInstructionInPlainMemory : Prop :=
  ∀ (s : State) (i : Instr), s.fault = none → Instr.wf s.config.xyStoreModes i = true →
    (∀ (k : Nat) (h : k < (encode i).length),
      isPeripheral s (s.pc + BitVec.ofNat 16 k) = false ∧ peek (s.pc + BitVec.ofNat 16 k) s = (encode i)[k]) →
    step s = exec i { s with pc := s.pc + BitVec.ofNat 16 (encode i).length }

/-- 40_execution_cycle.md R109 (a step that raises is a next state with the mark set: log entry 4): no instruction stops the CPU. Every instruction answers a next state from every state, and so does every step of a
state without a fault mark, whatever bytes it fetches. -/
def Obligations.NoInstructionStopsTheCpu : Prop :=
  (∀ (i : Instr) (s : State), ∃ t, exec i s = .next t) ∧
  (∀ s : State, s.fault = none → ∃ t, step s = .next t)

/-- 60_exceptions.md R174 point 5 (D8): once the fault mark is set no step happens: the step is the fault of that mark, and every later
`execute` leaves the state as it is. -/
def Obligations.MarkedStateTakesNoStep : Prop :=
  ∀ (s : State) (e : UnmappedWrite), s.fault = some e →
    step s = .fault (.unmappedWrite e.addr e.value) ∧ ∀ budget, execute budget s = s

/-- 40_execution_cycle.md R107, 60_exceptions.md R173 and R174 (D8): a step sets the fault mark only under the Fault policy, and then to an
address that no mapping contains. -/
def Obligations.FaultMarkNamesAnUnmappedWrite : Prop :=
  ∀ s t : State, s.fault = none → step s = .next t →
    t.fault = none ∨
    (s.config.unmappedWrite = .fault ∧ ∃ a v, t.fault = some ⟨a, v⟩ ∧ busMatch s.map a = none)

/-- R88: `execute` runs a step while the budget is above 0 and no fault mark is set, and takes the COST of the opcode fetched
from the budget; otherwise it changes nothing. Every COST is at least the 1 of the fetch. -/
def Obligations.ExecuteFollowsTheBudgetLoop : Prop :=
  (∀ (budget : Int) (s : State), budget ≤ 0 ∨ s.fault ≠ none → execute budget s = s) ∧
  (∀ (budget : Int) (s : State), 0 < budget → s.fault = none →
    ∃ t, step s = .next t ∧ execute budget s = execute (budget - (s.config.cost.of (peek s.pc s) : Int)) t) ∧
  (∀ (c : Cost) (op : Byte), 1 ≤ c.of op)

/-- R90: the budget is a floor, not an exact cutoff. When `execute` ends without a fault mark, its last step, from a state that the
run has reached and with the budget the run has left there, was started with the budget above 0, completed, and left the
budget at 0 or below, by at most that step's COST - 1. -/
def Obligations.BudgetIsAFloor : Prop :=
  ∀ (budget : Int) (s : State), 0 < budget → s.fault = none → (executeLeft budget s).2.fault = none →
    ∃ (n : Nat) (left : Int) (u : State), stepMany n s = some u ∧ executeLeft budget s = executeLeft left u ∧
      0 < left ∧ u.fault = none ∧ step u = .next (executeLeft budget s).2 ∧
      (executeLeft budget s).1 = left - (u.config.cost.of (peek u.pc u) : Int) ∧
      (executeLeft budget s).1 ≤ 0 ∧
      -(executeLeft budget s).1 ≤ (u.config.cost.of (peek u.pc u) : Int) - 1

/-- 60_exceptions.md R182: `execute(1)` is exactly one step. -/
def Obligations.ExecuteOneIsOneStep : Prop :=
  ∀ s : State, s.fault = none → step s = .next (execute 1 s)

/-- 20_memory.md R69, 70_reset_and_hazards.md R196, for every storing instruction (RAM of R45, D15): a store to the address the next
instruction is fetched from is seen by that fetch, with nothing between. Where JSR and BRK store several bytes, a byte that a later
one overwrites (the same place in a RAM reached twice) is not the one seen. -/
def Obligations.StoreIsSeenByTheNextFetch : Prop :=
  (∀ s : State, isRam s s.pc = true →
    (∃ t, exec (.staAbs s.pc) s = .next t ∧ t.pc = s.pc ∧ (fetch8 t).1 = s.a) ∧
    (∃ t, exec (.stxAbs s.pc) s = .next t ∧ t.pc = s.pc ∧ (fetch8 t).1 = s.x) ∧
    (∃ t, exec (.styAbs s.pc) s = .next t ∧ t.pc = s.pc ∧ (fetch8 t).1 = s.y)) ∧
  (∀ (s : State) (zp : Byte), isRam s s.pc = true → zeroPageAddr zp = s.pc →
    (∃ t, exec (.staZp zp) s = .next t ∧ t.pc = s.pc ∧ (fetch8 t).1 = s.a) ∧
    (∃ t, exec (.stxZp zp) s = .next t ∧ t.pc = s.pc ∧ (fetch8 t).1 = s.x) ∧
    (∃ t, exec (.styZp zp) s = .next t ∧ t.pc = s.pc ∧ (fetch8 t).1 = s.y)) ∧
  (∀ s : State, isRam s s.pc = true → stackAddr s.sp = s.pc →
    (∃ t, exec .pha s = .next t ∧ t.pc = s.pc ∧ (fetch8 t).1 = s.a) ∧
    (∃ t, exec .php s = .next t ∧ t.pc = s.pc ∧ (fetch8 t).1 = s.p ||| 0x10#8)) ∧
  (∀ (s : State) (target : Addr), storeOk s (stackAddr s.sp) = true → storeOk s (stackAddr (s.sp - 1)) = true →
    isRam s target = true →
    ∃ t, exec (.jsr target) s = .next t ∧ t.pc = target ∧
      (target = stackAddr (s.sp - 1) → (fetch8 t).1 = loByte (s.pc - 1)) ∧
      (target = stackAddr s.sp → sameSite s (stackAddr (s.sp - 1)) target = false → (fetch8 t).1 = hiByte (s.pc - 1))) ∧
  (∀ (s : State) (ret : Addr), ret = s.pc + BitVec.ofNat 16 s.config.brkPcSkip.val →
    storeOk s (stackAddr s.sp) = true → storeOk s (stackAddr (s.sp - 1)) = true → storeOk s (stackAddr (s.sp - 2)) = true →
    ∃ t, exec .brk s = .next t ∧
      (isRam s t.pc = true →
        (t.pc = stackAddr (s.sp - 2) → (fetch8 t).1 = s.p ||| 0x10#8) ∧
        (t.pc = stackAddr (s.sp - 1) → sameSite s (stackAddr (s.sp - 2)) t.pc = false → (fetch8 t).1 = loByte ret) ∧
        (t.pc = stackAddr s.sp → sameSite s (stackAddr (s.sp - 1)) t.pc = false →
          sameSite s (stackAddr (s.sp - 2)) t.pc = false → (fetch8 t).1 = hiByte ret)))

/-! ### Instructions: their results, from the state after their operand fetch -/

/-- LDA #, LDX #, LDY # (41_load_store.md R110 to R112; opcode bytes D3, flag positions D2): the register is the operand byte, Z and N come
from it, nothing else changes. -/
def Obligations.LoadImmediateResults : Prop :=
  ∀ (s : State) (v : Byte), ∃ q, ZNFrom v s.p q ∧
    encode (.ldaImm v) = [0xA9#8, v] ∧ exec (.ldaImm v) s = .next { s with a := v, p := q } ∧
    encode (.ldxImm v) = [0xA2#8, v] ∧ exec (.ldxImm v) s = .next { s with x := v, p := q } ∧
    encode (.ldyImm v) = [0xA0#8, v] ∧ exec (.ldyImm v) s = .next { s with y := v, p := q }

/-- STA, STX, STY zero-page (41_load_store.md R113, R115, R117; D3, D5): where the write at the zero-page address raises nothing, it is all that
changes; otherwise all that changes is the fault mark. -/
def Obligations.ZeroPageStoreResults : Prop :=
  ∀ (s : State) (zp : Byte),
    encode (.staZp zp) = [0x85#8, zp] ∧ encode (.stxZp zp) = [0x86#8, zp] ∧ encode (.styZp zp) = [0x84#8, zp] ∧
    (storeOk s (zext16 zp) = true →
      exec (.staZp zp) s = .next (stored (zext16 zp) s.a s) ∧
      exec (.stxZp zp) s = .next (stored (zext16 zp) s.x s) ∧
      exec (.styZp zp) s = .next (stored (zext16 zp) s.y s)) ∧
    (storeOk s (zext16 zp) = false →
      exec (.staZp zp) s = .next { s with fault := some ⟨zext16 zp, s.a⟩ } ∧
      exec (.stxZp zp) s = .next { s with fault := some ⟨zext16 zp, s.x⟩ } ∧
      exec (.styZp zp) s = .next { s with fault := some ⟨zext16 zp, s.y⟩ })

/-- STA, STX, STY absolute (41_load_store.md R114, R116, R118; D3, D5), as the zero-page forms, at any of the 65536 addresses. -/
def Obligations.AbsoluteStoreResults : Prop :=
  ∀ (s : State) (ea : Addr),
    encode (.staAbs ea) = [0x8D#8, loByte ea, hiByte ea] ∧
    encode (.stxAbs ea) = [0x8E#8, loByte ea, hiByte ea] ∧
    encode (.styAbs ea) = [0x8C#8, loByte ea, hiByte ea] ∧
    (storeOk s ea = true →
      exec (.staAbs ea) s = .next (stored ea s.a s) ∧
      exec (.stxAbs ea) s = .next (stored ea s.x s) ∧
      exec (.styAbs ea) s = .next (stored ea s.y s)) ∧
    (storeOk s ea = false →
      exec (.staAbs ea) s = .next { s with fault := some ⟨ea, s.a⟩ } ∧
      exec (.stxAbs ea) s = .next { s with fault := some ⟨ea, s.x⟩ } ∧
      exec (.styAbs ea) s = .next { s with fault := some ⟨ea, s.y⟩ })

/-- TAX, TXA, TAY, TYA, TSX (42_transfer.md R130 to R134; D3, D2): the destination takes the source, Z and N come from it, nothing else
changes. -/
def Obligations.TransferResults : Prop :=
  ∀ s : State,
    (encode .tax = [0xAA#8] ∧ ∃ q, ZNFrom s.a s.p q ∧ exec .tax s = .next { s with x := s.a, p := q }) ∧
    (encode .txa = [0x8A#8] ∧ ∃ q, ZNFrom s.x s.p q ∧ exec .txa s = .next { s with a := s.x, p := q }) ∧
    (encode .tay = [0xA8#8] ∧ ∃ q, ZNFrom s.a s.p q ∧ exec .tay s = .next { s with y := s.a, p := q }) ∧
    (encode .tya = [0x98#8] ∧ ∃ q, ZNFrom s.y s.p q ∧ exec .tya s = .next { s with a := s.y, p := q }) ∧
    (encode .tsx = [0xBA#8] ∧ ∃ q, ZNFrom s.sp s.p q ∧ exec .tsx s = .next { s with x := s.sp, p := q })

/-- TXS and NOP (42_transfer.md R135, 45_interrupt_nop.md R162; D3): TXS gives SP the value of X, bit 7 set or not, and writes no flag; NOP changes
nothing and costs exactly one budget unit in every core (40_execution_cycle.md R89). -/
def Obligations.TxsAndNopResults : Prop :=
  ∀ s : State,
    encode .txs = [0x9A#8] ∧ exec .txs s = .next { s with sp := s.x } ∧
    encode .nop = [0xEA#8] ∧ exec .nop s = .next s ∧ ∀ c : Cost, c.of 0xEA#8 = 1

/-- PHA and PHP (43_stack.md R140, R141; D3, D2): the byte pushed is A, or P with the Break bit 0x10 set and bit 5 as it stands, at
0x0100 + SP; SP then drops by one. P itself never changes. If the write raises, SP is not decremented. -/
def Obligations.PushResults : Prop :=
  ∀ s : State, encode .pha = [0x48#8] ∧ encode .php = [0x08#8] ∧
    (storeOk s (stackAddr s.sp) = true →
      exec .pha s = .next { stored (stackAddr s.sp) s.a s with sp := s.sp - 1 } ∧
      exec .php s = .next { stored (stackAddr s.sp) (s.p ||| 0x10#8) s with sp := s.sp - 1 }) ∧
    (storeOk s (stackAddr s.sp) = false →
      exec .pha s = .next { s with fault := some ⟨stackAddr s.sp, s.a⟩ } ∧
      exec .php s = .next { s with fault := some ⟨stackAddr s.sp, s.p ||| 0x10#8⟩ })

/-- PLA and PLP (43_stack.md R142, R143; D3, D2): SP goes up by one and the byte read at 0x0100 + SP becomes A, with Z and N from it, or
becomes P whole, with no flag derived, masked or forced. The only other change is what the read itself does to a peripheral. -/
def Obligations.PullResults : Prop :=
  ∀ s : State, encode .pla = [0x68#8] ∧ encode .plp = [0x28#8] ∧
    (∃ q, ZNFrom (peek (stackAddr (s.sp + 1)) s) s.p q ∧
      exec .pla s = .next { afterRead (stackAddr (s.sp + 1)) s with
        sp := s.sp + 1, a := peek (stackAddr (s.sp + 1)) s, p := q }) ∧
    exec .plp s = .next { afterRead (stackAddr (s.sp + 1)) s with
      sp := s.sp + 1, p := peek (stackAddr (s.sp + 1)) s }

/-- JMP absolute and JMP indirect (44_jump_subroutine.md R150, R151; D3): PC is the operand, or the target whose low byte is read at the
pointer and whose high byte is read within the pointer's page; no flag or other register changes. -/
def Obligations.JumpResults : Prop :=
  ∀ (s : State) (w : Addr),
    encode (.jmpAbs w) = [0x4C#8, loByte w, hiByte w] ∧ exec (.jmpAbs w) s = .next { s with pc := w } ∧
    encode (.jmpInd w) = [0x6C#8, loByte w, hiByte w] ∧
    ∃ target : Addr,
      target.toNat = (peek (pointerHighAddr w) (afterRead w s)).toNat * 256 + (peek w s).toNat ∧
      exec (.jmpInd w) s = .next { afterRead (pointerHighAddr w) (afterRead w s) with pc := target }

/-- JSR (44_jump_subroutine.md R152; D3): PC - 1 (the address of JSR's last byte) is pushed, high byte first, SP drops by two and PC is
the target; if the first push raises, only the fault mark is set; if the second does, the high byte stays written and SP has
dropped by one; PC is not the target in either case. -/
def Obligations.JsrResults : Prop :=
  ∀ (s : State) (target : Addr), encode (.jsr target) = [0x20#8, loByte target, hiByte target] ∧
    (storeOk s (stackAddr s.sp) = true → storeOk s (stackAddr (s.sp - 1)) = true →
      exec (.jsr target) s = .next
        { stored (stackAddr (s.sp - 1)) (loByte (s.pc - 1)) (stored (stackAddr s.sp) (hiByte (s.pc - 1)) s) with
          sp := s.sp - 2, pc := target }) ∧
    (storeOk s (stackAddr s.sp) = false →
      exec (.jsr target) s = .next { s with fault := some ⟨stackAddr s.sp, hiByte (s.pc - 1)⟩ }) ∧
    (storeOk s (stackAddr s.sp) = true → storeOk s (stackAddr (s.sp - 1)) = false →
      exec (.jsr target) s = .next
        { stored (stackAddr s.sp) (hiByte (s.pc - 1)) s with
          sp := s.sp - 1, fault := some ⟨stackAddr (s.sp - 1), loByte (s.pc - 1)⟩ })

/-- RTS (44_jump_subroutine.md R153; D3): the low byte is pulled first, then the high byte; PC is the pulled address plus one, modulo 65536;
SP goes up by two; no flag changes. -/
def Obligations.RtsResults : Prop :=
  ∀ s : State, encode .rts = [0x60#8] ∧
    ∃ (lo hi : Byte) (pc : Addr),
      lo = peek (stackAddr (s.sp + 1)) s ∧
      hi = peek (stackAddr (s.sp + 2)) (afterRead (stackAddr (s.sp + 1)) s) ∧
      pc.toNat = (hi.toNat * 256 + lo.toNat + 1) % 65536 ∧
      exec .rts s = .next
        { afterRead (stackAddr (s.sp + 2)) (afterRead (stackAddr (s.sp + 1)) s) with sp := s.sp + 2, pc := pc }

/-- BRK (45_interrupt_nop.md R160, 60_exceptions.md R175; D3, D2, every value of BRK_PC_SKIP): PC past the skipped bytes is pushed high byte
first, then P with Break set; SP drops by three; of P only I changes, to 1; PC is the vector at 0xFFFE and 0xFFFF, read in that order after
the pushes. It does so whatever P.I is. -/
def Obligations.BrkResults : Prop :=
  ∀ s : State, encode .brk = [0x00#8] ∧
    (storeOk s (stackAddr s.sp) = true → storeOk s (stackAddr (s.sp - 1)) = true →
      storeOk s (stackAddr (s.sp - 2)) = true →
      ∃ (ret : Addr) (w : State) (q : Byte) (pc : Addr),
        ret.toNat = (s.pc.toNat + s.config.brkPcSkip.val) % 65536 ∧
        w = stored (stackAddr (s.sp - 2)) (s.p ||| 0x10#8)
              (stored (stackAddr (s.sp - 1)) (loByte ret) (stored (stackAddr s.sp) (hiByte ret) s)) ∧
        getFlag q .interruptDisable = true ∧
        (∀ f : Flag, f ≠ .interruptDisable → getFlag q f = getFlag s.p f) ∧
        pc.toNat = (peek 0xFFFF#16 (afterRead 0xFFFE#16 w)).toNat * 256 + (peek 0xFFFE#16 w).toNat ∧
        exec .brk s = .next
          { afterRead 0xFFFF#16 (afterRead 0xFFFE#16 w) with sp := s.sp - 3, p := q, pc := pc })

/-- BRK where a push raises (45_interrupt_nop.md R160, 40_execution_cycle.md R107; D8): the pushes before it stay, with SP dropped by their number; P
keeps every flag, I too; PC stays past the skipped bytes; the fault mark names the push that raised. -/
def Obligations.BrkStopsAtARaisingPush : Prop :=
  ∀ (s : State) (ret : Addr), ret.toNat = (s.pc.toNat + s.config.brkPcSkip.val) % 65536 →
    (storeOk s (stackAddr s.sp) = false →
      exec .brk s = .next { s with pc := ret, fault := some ⟨stackAddr s.sp, hiByte ret⟩ }) ∧
    (storeOk s (stackAddr s.sp) = true → storeOk s (stackAddr (s.sp - 1)) = false →
      exec .brk s = .next
        { stored (stackAddr s.sp) (hiByte ret) s with
          pc := ret, sp := s.sp - 1, fault := some ⟨stackAddr (s.sp - 1), loByte ret⟩ }) ∧
    (storeOk s (stackAddr s.sp) = true → storeOk s (stackAddr (s.sp - 1)) = true →
      storeOk s (stackAddr (s.sp - 2)) = false →
      exec .brk s = .next
        { stored (stackAddr (s.sp - 1)) (loByte ret) (stored (stackAddr s.sp) (hiByte ret) s) with
          pc := ret, sp := s.sp - 2, fault := some ⟨stackAddr (s.sp - 2), s.p ||| 0x10#8⟩ })

/-- RTI (45_interrupt_nop.md R161, 60_exceptions.md R176; D3, D7): P, all eight bits, is pulled first, then PC's low byte, then its high byte; SP goes up
by three; no one is added to PC. -/
def Obligations.RtiResults : Prop :=
  ∀ s : State, encode .rti = [0x40#8] ∧
    ∃ (s1 s2 s3 : State) (pc : Addr),
      s1 = afterRead (stackAddr (s.sp + 1)) s ∧
      s2 = afterRead (stackAddr (s.sp + 2)) s1 ∧
      s3 = afterRead (stackAddr (s.sp + 3)) s2 ∧
      pc.toNat = (peek (stackAddr (s.sp + 3)) s2).toNat * 256 + (peek (stackAddr (s.sp + 2)) s1).toNat ∧
      exec .rti s = .next { s3 with sp := s.sp + 3, p := peek (stackAddr (s.sp + 1)) s, pc := pc }

/-! ### Frames and whole-machine rules -/

/-- The memory frame of every instruction (00_scope.md R15 and the instruction rules R110 to R162; devices of R45): an address reads after the
instruction as before unless it is one of the bytes the instruction stores to, or is in a peripheral that the instruction reads. An
instruction that stores nothing and reads no peripheral leaves every address as it was. -/
def Obligations.EveryInstructionLeavesOtherBytes : Prop :=
  ∀ (i : Instr) (s t : State) (b : Addr), exec i s = .next t →
    (∀ a ∈ writeAddrs i s, sameSite s a b = false) →
    (∀ a ∈ readAddrs i s, isPeripheral s a = true → sameSite s a b = false) →
    peek b t = peek b s

/-- 10_state.md R29: a flag changes only by an instruction that the table lists as its writer: Z and N by the loads, the transfers
to A, X and Y, PLA, PLP and RTI; I by BRK, PLP and RTI; C, D, B, U and V by PLP and RTI alone. -/
def Obligations.FlagsChangeOnlyByTheirWriters : Prop :=
  ∀ (i : Instr) (s t : State) (f : Flag), exec i s = .next t → getFlag t.p f ≠ getFlag s.p f →
    i = .plp ∨ i = .rti ∨
    (f = .interruptDisable ∧ i = .brk) ∨
    ((f = .zero ∨ f = .negative) ∧
      (i = .tax ∨ i = .txa ∨ i = .tay ∨ i = .tya ∨ i = .tsx ∨ i = .pla ∨
        ∃ v, i = .ldaImm v ∨ i = .ldxImm v ∨ i = .ldyImm v))

/-- 10_state.md R21 and R25: A, X, Y and SP change only by the instructions the tables list as their writers. -/
def Obligations.RegistersChangeOnlyByTheirWriters : Prop :=
  ∀ (i : Instr) (s t : State), exec i s = .next t →
    (t.a ≠ s.a → i = .txa ∨ i = .tya ∨ i = .pla ∨ ∃ v, i = .ldaImm v) ∧
    (t.x ≠ s.x → i = .tax ∨ i = .tsx ∨ ∃ v, i = .ldxImm v) ∧
    (t.y ≠ s.y → i = .tay ∨ ∃ v, i = .ldyImm v) ∧
    (t.sp ≠ s.sp → i = .pha ∨ i = .php ∨ i = .pla ∨ i = .plp ∨ i = .rts ∨ i = .brk ∨ i = .rti ∨ i = .txs ∨
      ∃ w, i = .jsr w)

/-- 10_state.md R30: no instruction's behaviour depends on a flag. Two states that differ in P alone: a step of an instruction other
than PHP and BRK (which push P), or of an unrecognized opcode, leads to two states that differ in P alone. PHP and BRK lead to states that agree on A, X, Y, SP, the
trace, MAP, the parameters, the mark's address, every device but the one that takes the pushed status, and every byte in
another place than the pushed status (all of a peripheral is one place). They agree on PC too: PHP always, BRK where no vector byte is in
the place that the status is pushed to. -/
def Obligations.FlagsDoNotInfluenceExecution : Prop :=
  (∀ (s t : State) (p : Byte), step s = .next t →
    (fetchInstr s).1 ≠ .instr .php → (fetchInstr s).1 ≠ .instr .brk →
    ∃ q, step { s with p := p } = .next { t with p := q }) ∧
  (∀ (s t : State) (p : Byte), exec .php s = .next t →
    ∃ u, exec .php { s with p := p } = .next u ∧ u.pc = t.pc ∧ AgreeButStatusAt s (stackAddr s.sp) t u) ∧
  (∀ (s t : State) (p : Byte), exec .brk s = .next t →
    ∃ u, exec .brk { s with p := p } = .next u ∧ AgreeButStatusAt s (stackAddr (s.sp - 2)) t u ∧
      (sameSite s (stackAddr (s.sp - 2)) 0xFFFE#16 = false → sameSite s (stackAddr (s.sp - 2)) 0xFFFF#16 = false →
        u.pc = t.pc))

/-- 10_state.md R33 and R39: no step changes MAP or a parameter, and no step adds or removes a device. -/
def Obligations.StepKeepsMapAndParameters : Prop :=
  ∀ s t : State, step s = .next t → t.map = s.map ∧ t.config = s.config ∧ t.devs.length = s.devs.length

/-- 10_state.md R36, 60_exceptions.md R173 (D16): the event trace is append-only. A step adds exactly one event if the opcode it fetches is
unrecognized, and none otherwise. -/
def Obligations.TraceGrowsOnlyByUnrecognizedOpcodes : Prop :=
  ∀ s t : State, step s = .next t →
    (formOf s.config.xyStoreModes (peek s.pc s) = none → t.trace = s.trace ++ [⟨peek s.pc s, s.pc⟩]) ∧
    (formOf s.config.xyStoreModes (peek s.pc s) ≠ none → t.trace = s.trace)

/-- 43_stack.md R144: a push then a pull gives the byte pushed and SP back, where the stack byte is RAM, from every SP, 0x00 too. -/
def Obligations.PullUndoesPush : Prop :=
  ∀ (s : State) (v : Byte), isRam s (stackAddr s.sp) = true →
    ∃ t, push v s = .done t ∧ (pull t).1 = v ∧ (pull t).2 = { t with sp := s.sp }

/-- 43_stack.md R140, DOC's property P6: n pushes of A lower SP by n modulo 256 with no error, so 256 of them bring SP back, and the 257th
writes the address that the first wrote. -/
def Obligations.RepeatedPushesWrap : Prop :=
  (∀ (n : Nat) (s : State), (∀ sp, storeOk s (stackAddr sp) = true) →
    ∃ t, repeatExec .pha n s = some t ∧ t.sp = s.sp - BitVec.ofNat 8 n ∧
      t.fault = s.fault ∧ t.trace = s.trace ∧ t.a = s.a ∧ t.pc = s.pc) ∧
  (∀ s : State, (∀ sp, storeOk s (stackAddr sp) = true) →
    ∃ t, repeatExec .pha 256 s = some t ∧ t.sp = s.sp ∧ writeAddrs .pha t = writeAddrs .pha s)

/-- 44_jump_subroutine.md R154 (opcode bytes D3), step by step: a JSR fetched at address P calls its target; from any later state with
SP as it was just after the JSR, the two pushed bytes unchanged and readable without effect, an RTS fetched there brings PC to P + 3 and SP back.
The stack page is plain memory: the two stack bytes are RAM, and different bytes. -/
def Obligations.ReturnUndoesCall : Prop :=
  ∀ (s : State) (target : Addr), s.fault = none → (fetchBytes 3 s).1 = encode (.jsr target) →
    isRam s (stackAddr s.sp) = true → isRam s (stackAddr (s.sp - 1)) = true →
    sameSite s (stackAddr s.sp) (stackAddr (s.sp - 1)) = false →
    ∃ t, step s = .next t ∧ t.pc = target ∧ t.fault = none ∧
      ∀ u : State, u.fault = none → u.sp = t.sp → (fetchBytes 1 u).1 = encode .rts →
        isRam u (stackAddr (t.sp + 1)) = true → isRam u (stackAddr (t.sp + 2)) = true →
        peek (stackAddr (t.sp + 1)) u = peek (stackAddr (t.sp + 1)) t →
        peek (stackAddr (t.sp + 2)) u = peek (stackAddr (t.sp + 2)) t →
        ∃ w, step u = .next w ∧ w.pc = s.pc + 3 ∧ w.sp = s.sp

/-- 45_interrupt_nop.md R163 (D3, D2, every value of BRK_PC_SKIP), step by step: a BRK fetched at address Q; from any later state with SP as it
was just after the BRK and the three pushed bytes unchanged in plain memory, an RTI fetched there brings PC to Q + 1 + BRK_PC_SKIP, P to the
value before the BRK with the Break bit set, and SP back. -/
def Obligations.ReturnFromInterruptUndoesBreak : Prop :=
  ∀ s : State, s.fault = none → (fetchBytes 1 s).1 = encode .brk →
    isRam s (stackAddr s.sp) = true → isRam s (stackAddr (s.sp - 1)) = true → isRam s (stackAddr (s.sp - 2)) = true →
    sameSite s (stackAddr s.sp) (stackAddr (s.sp - 1)) = false →
    sameSite s (stackAddr s.sp) (stackAddr (s.sp - 2)) = false →
    sameSite s (stackAddr (s.sp - 1)) (stackAddr (s.sp - 2)) = false →
    ∃ t, step s = .next t ∧ t.fault = none ∧
      ∀ u : State, u.fault = none → u.sp = t.sp → (fetchBytes 1 u).1 = encode .rti →
        (∀ k : Byte, k = 1 ∨ k = 2 ∨ k = 3 →
          isRam u (stackAddr (t.sp + k)) = true ∧
          peek (stackAddr (t.sp + k)) u = peek (stackAddr (t.sp + k)) t) →
        ∃ w, step u = .next w ∧
          w.pc = s.pc + 1 + BitVec.ofNat 16 s.config.brkPcSkip.val ∧ w.p = s.p ||| 0x10#8 ∧ w.sp = s.sp

/-- 70_reset_and_hazards.md R194 and the corner case of R97 (0xFF is no opcode: D3; D16): with no device attached every fetch reads 0xFF, so n steps
walk PC forward n bytes, wrapping, and add one event for each byte; nothing else changes. -/
def Obligations.UnmappedSpaceIsWalkedByteByByte : Prop :=
  ∀ (n : Nat) (s : State), s.map = [] → s.fault = none →
    stepMany n s = some
      { s with
        pc := s.pc + BitVec.ofNat 16 n
        trace := s.trace ++ (List.range n).map fun k => ⟨0xFF#8, s.pc + BitVec.ofNat 16 k⟩ }

/-- The model's own invariant of a well-formed state (the size and device clauses are log entries 8 (D9) and 11, the canonical form of a
store log entry 23, the policy of the mark log entry 4 (D8): SP_RESET is not 0x00; every mapping has a size of at most 65536 and a device there is; every
RAM and ROM store is canonical; the fault mark is set only under the Fault policy) is kept by every step, from every state that
meets it. -/
def Obligations.StepKeepsTheInvariant : Prop :=
  ∀ s t : State, s.inv = true → step s = .next t → t.inv = true

/-- 20_memory.md R40, R46, R61 to R64: the host's own operations keep the model's own invariant too (its size and device clauses are
log entries 8 (D9) and 11, its canonical stores log entry 23), an `attach` when it names a device there is with a size of at
most 65536 and a canonical store. -/
def Obligations.HostCallsKeepTheInvariant : Prop :=
  ∀ (s : State) (c : HostCall), s.inv = true →
    (∀ base size r, c = .attach base size r →
      size ≤ 65536 ∧ (∀ d, r = .fresh d → d.wf = true) ∧ (∀ id, r = .attached id → id < s.devs.length)) →
    (hostCall c s).2.inv = true

/-- 10_state.md R37, 70_reset_and_hazards.md R190 and R191, for every configuration: reset clears A, X, Y and P, gives SP the value SP_RESET and PC zero or the
given address, with no device, mapping, event or fault mark; under the defaults (D10, D11, log entries 2 and 3) SP is 0xFF and PC 0x0000. The
state meets the invariant whenever SP_RESET is not 0x00. -/
def Obligations.ResetValuesAndInvariant : Prop :=
  (∀ c : Config,
    State.resetWith c =
      { a := 0x00#8, x := 0x00#8, y := 0x00#8, sp := c.spReset, p := 0x00#8,
        pc := match c.resetPc with
              | .zero => 0x0000#16
              | .given v => v,
        devs := [], map := [], trace := [], fault := none, config := c }) ∧
  (∀ c : Config, c.spReset ≠ 0x00#8 → (State.resetWith c).inv = true) ∧
  (State.reset.sp = 0xFF#8 ∧ State.reset.pc = 0x0000#16 ∧ State.reset.config = Config.standard ∧ State.reset.inv = true)
end

