-- ==== Sys2Proof/Laws/Budget.lean ====
section
/-! SUPPORT. COST by its two parts: the fetch, and the handler's units. -/

namespace Sys2Proof

theorem Cost.of_eq (c : Cost) (op : Byte) : c.of op = 1 + c.handlerUnits op := rfl

@[simp] theorem Cost.handlerUnits_nop (c : Cost) : c.handlerUnits 0xEA#8 = 0 := rfl

theorem Cost.handlerUnits_listed {c : Cost} {op : Byte} {r : Byte × Nat} (h : op ≠ 0xEA#8)
    (hr : (c.find? fun r => r.1 == op) = some r) : c.handlerUnits op = r.2 := by
  simp [Cost.handlerUnits, h, hr]

theorem Cost.handlerUnits_unlisted {c : Cost} {op : Byte} (hr : (c.find? fun r => r.1 == op) = none) :
    c.handlerUnits op = 0 := by
  simp [Cost.handlerUnits, hr]

end Sys2Proof
end

