-- ==== Sys2Proof/Laws/Memory.lean ====
section
/-! SUPPORT. The laws of a plain store: read after write, other offsets, and that a write keeps the canonical form. -/

namespace Sys2Proof.Machine

@[simp] theorem Memory.read_nil (off : Nat) : Memory.read [] off = Memory.blank := rfl

theorem Memory.read_eq_blank_of_not_listed (m : Memory) (off : Nat) (h : ∀ c ∈ m, c.1 ≠ off) :
    Memory.read m off = Memory.blank := by
  induction m with
  | nil => rfl
  | cons c m ih =>
    obtain ⟨k, v⟩ := c
    have hk : k ≠ off := h (k, v) (by simp)
    simp [Memory.read, hk, ih fun c hc => h c (by simp [hc])]

theorem Memory.read_filter (m : Memory) (off b : Nat) :
    Memory.read (m.filter fun c => c.1 != off) b = if b = off then Memory.blank else Memory.read m b := by
  induction m with
  | nil => simp
  | cons c m ih =>
    obtain ⟨k, v⟩ := c
    by_cases hk : k = off <;> by_cases hb : k = b <;> simp_all [Memory.read]

theorem Memory.read_insert (m : Memory) (off b : Nat) (v : Byte) (h : ∀ c ∈ m, c.1 ≠ off) :
    Memory.read (Memory.insert off v m) b = if b = off then v else Memory.read m b := by
  induction m with
  | nil => simp [Memory.insert, Memory.read, eq_comm]
  | cons c m ih =>
    obtain ⟨k, w⟩ := c
    have hk : k ≠ off := h (k, w) (by simp)
    have ih := ih fun c hc => h c (by simp [hc])
    unfold Memory.insert
    split
    · simp [Memory.read, eq_comm]
    · by_cases hb : b = off
      · subst hb; simp [Memory.read, hk, ih]
      · simp [Memory.read, ih, hb]

/-- What every offset of a store reads after a write. -/
theorem Memory.read_write (m : Memory) (off b : Nat) (v : Byte) :
    Memory.read (Memory.write m off v) b = if b = off then v else Memory.read m b := by
  have hno : ∀ c ∈ m.filter (fun c => c.1 != off), c.1 ≠ off := by
    intro c hc
    simpa using (List.mem_filter.mp hc).2
  unfold Memory.write
  split
  · next hv => rw [Memory.read_filter, hv]
  · rw [Memory.read_insert _ _ _ _ hno, Memory.read_filter]
    split <;> simp_all

@[simp] theorem Memory.read_write_same (m : Memory) (off : Nat) (v : Byte) :
    Memory.read (Memory.write m off v) off = v := by
  simp [Memory.read_write]

theorem Memory.wfFrom_mono (last lo lo' : Nat) (m : Memory) (hlo : lo' ≤ lo) (h : Memory.wfFrom last lo m = true) :
    Memory.wfFrom last lo' m = true := by
  cases m with
  | nil => rfl
  | cons c m =>
    obtain ⟨k, v⟩ := c
    simp only [Memory.wfFrom, Bool.and_eq_true, decide_eq_true_eq, bne_iff_ne] at h ⊢
    refine ⟨⟨⟨by omega, h.1.1.2⟩, h.1.2⟩, h.2⟩

theorem Memory.wfFrom_filter (last lo : Nat) (m : Memory) (p : Host.Cell → Bool) (h : Memory.wfFrom last lo m = true) :
    Memory.wfFrom last lo (m.filter p) = true := by
  induction m generalizing lo with
  | nil => rfl
  | cons c m ih =>
    obtain ⟨k, v⟩ := c
    simp only [Memory.wfFrom, Bool.and_eq_true, decide_eq_true_eq, bne_iff_ne] at h
    have ht := ih (k + 1) h.2
    by_cases hp : p (k, v) = true
    · simpa [List.filter_cons, hp, Memory.wfFrom] using ⟨⟨⟨h.1.1.1, h.1.1.2⟩, h.1.2⟩, ht⟩
    · simpa [List.filter_cons, hp] using Memory.wfFrom_mono last (k + 1) lo _ (by omega) ht

theorem Memory.wfFrom_insert (last lo off : Nat) (v : Byte) (m : Memory) (hlo : lo ≤ off) (hlast : off ≤ last)
    (hv : v ≠ Memory.blank) (hno : ∀ c ∈ m, c.1 ≠ off) (h : Memory.wfFrom last lo m = true) :
    Memory.wfFrom last lo (Memory.insert off v m) = true := by
  induction m generalizing lo with
  | nil => simp [Memory.insert, Memory.wfFrom, hlo, hlast, hv]
  | cons c m ih =>
    obtain ⟨k, w⟩ := c
    have hk : k ≠ off := hno (k, w) (by simp)
    simp only [Memory.wfFrom, Bool.and_eq_true, decide_eq_true_eq, bne_iff_ne] at h
    unfold Memory.insert
    split
    · simp only [Memory.wfFrom, Bool.and_eq_true, decide_eq_true_eq, bne_iff_ne]
      exact ⟨⟨⟨hlo, hlast⟩, hv⟩, ⟨⟨by omega, h.1.1.2⟩, h.1.2⟩, h.2⟩
    · simp only [Memory.wfFrom, Bool.and_eq_true, decide_eq_true_eq, bne_iff_ne]
      exact ⟨⟨⟨h.1.1.1, h.1.1.2⟩, h.1.2⟩, ih (k + 1) (by omega) (fun c hc => hno c (by simp [hc])) h.2⟩

/-- A write inside the store keeps the canonical form. -/
theorem Memory.write_wf (last off : Nat) (v : Byte) (m : Memory) (hoff : off ≤ last) (h : Memory.wf last m = true) :
    Memory.wf last (Memory.write m off v) = true := by
  have hf := Memory.wfFrom_filter last 0 m (fun c => c.1 != off) h
  unfold Memory.write Memory.wf
  split
  · exact hf
  · next hv =>
    refine Memory.wfFrom_insert last 0 off v _ (by omega) hoff hv ?_ hf
    intro c hc
    simpa using (List.mem_filter.mp hc).2

/-- The empty store is canonical. -/
@[simp] theorem Memory.wf_nil (last : Nat) : Memory.wf last [] = true := rfl

theorem Memory.read_of_wfFrom_lt (last lo off : Nat) (m : Memory) (h : Memory.wfFrom last lo m = true) (hlt : off < lo) :
    Memory.read m off = Memory.blank := by
  induction m generalizing lo with
  | nil => rfl
  | cons c m ih =>
    obtain ⟨k, v⟩ := c
    simp only [Memory.wfFrom, Bool.and_eq_true, decide_eq_true_eq, bne_iff_ne] at h
    have hk : k ≠ off := by omega
    simp [Memory.read, hk, ih (k + 1) h.2 (by omega)]

theorem Memory.eq_of_read_eq_from (last lo : Nat) (m n : Memory) (hm : Memory.wfFrom last lo m = true)
    (hn : Memory.wfFrom last lo n = true) (h : ∀ off, Memory.read m off = Memory.read n off) : m = n := by
  induction m generalizing n lo with
  | nil =>
    cases n with
    | nil => rfl
    | cons c n =>
      obtain ⟨k, v⟩ := c
      have := h k
      simp only [Memory.wfFrom, Bool.and_eq_true, decide_eq_true_eq, bne_iff_ne] at hn
      simp [Memory.read] at this
      exact absurd this.symm hn.1.2
  | cons c m ih =>
    obtain ⟨k, v⟩ := c
    cases n with
    | nil =>
      have := h k
      simp only [Memory.wfFrom, Bool.and_eq_true, decide_eq_true_eq, bne_iff_ne] at hm
      simp [Memory.read] at this
      exact absurd this hm.1.2
    | cons d n =>
      obtain ⟨l, w⟩ := d
      simp only [Memory.wfFrom, Bool.and_eq_true, decide_eq_true_eq, bne_iff_ne] at hm hn
      have hkl : k = l := by
        rcases Nat.lt_trichotomy k l with hlt | heq | hgt
        · have := h k
          have hr := Memory.read_of_wfFrom_lt last (l + 1) k n hn.2 (by omega)
          simp [Memory.read, show l ≠ k by omega, hr] at this
          exact absurd this hm.1.2
        · exact heq
        · have := h l
          have hr := Memory.read_of_wfFrom_lt last (k + 1) l m hm.2 (by omega)
          simp [Memory.read, show k ≠ l by omega, hr] at this
          exact absurd this.symm hn.1.2
      subst hkl
      have hv := h k
      simp [Memory.read] at hv
      have htail : m = n := by
        apply ih (k + 1) n hm.2 hn.2
        intro off
        by_cases hoff : off = k
        · subst hoff
          rw [Memory.read_of_wfFrom_lt last (off + 1) off m hm.2 (by omega),
            Memory.read_of_wfFrom_lt last (off + 1) off n hn.2 (by omega)]
        · simpa [Memory.read, show k ≠ off from fun e => hoff e.symm] using h off
      rw [hv, htail]

/-- Equal memories are equal data: two canonical stores whose bytes all agree are one list. -/
theorem Memory.eq_of_read_eq (last : Nat) (m n : Memory) (hm : Memory.wf last m = true) (hn : Memory.wf last n = true)
    (h : ∀ off, Memory.read m off = Memory.read n off) : m = n :=
  Memory.eq_of_read_eq_from last 0 m n hm hn h

end Sys2Proof.Machine
end

