-- ==== Sys2Proof/Laws/State.lean ====
section
/-! SUPPORT. What each named update of the state does to each field, so that no later proof unfolds one. (A plain record update
reduces by itself.) -/

namespace Sys2Proof.Machine

variable (s : State)

@[simp] theorem setZN_a (v : Byte) : (setZN v s).a = s.a := rfl
@[simp] theorem setZN_x (v : Byte) : (setZN v s).x = s.x := rfl
@[simp] theorem setZN_y (v : Byte) : (setZN v s).y = s.y := rfl
@[simp] theorem setZN_sp (v : Byte) : (setZN v s).sp = s.sp := rfl
@[simp] theorem setZN_p (v : Byte) : (setZN v s).p = withZN v s.p := rfl
@[simp] theorem setZN_pc (v : Byte) : (setZN v s).pc = s.pc := rfl
@[simp] theorem setZN_devs (v : Byte) : (setZN v s).devs = s.devs := rfl
@[simp] theorem setZN_map (v : Byte) : (setZN v s).map = s.map := rfl
@[simp] theorem setZN_trace (v : Byte) : (setZN v s).trace = s.trace := rfl
@[simp] theorem setZN_fault (v : Byte) : (setZN v s).fault = s.fault := rfl
@[simp] theorem setZN_config (v : Byte) : (setZN v s).config = s.config := rfl

@[simp] theorem setDevice_a (id : Nat) (d : Device) : (s.setDevice id d).a = s.a := rfl
@[simp] theorem setDevice_x (id : Nat) (d : Device) : (s.setDevice id d).x = s.x := rfl
@[simp] theorem setDevice_y (id : Nat) (d : Device) : (s.setDevice id d).y = s.y := rfl
@[simp] theorem setDevice_sp (id : Nat) (d : Device) : (s.setDevice id d).sp = s.sp := rfl
@[simp] theorem setDevice_p (id : Nat) (d : Device) : (s.setDevice id d).p = s.p := rfl
@[simp] theorem setDevice_pc (id : Nat) (d : Device) : (s.setDevice id d).pc = s.pc := rfl
@[simp] theorem setDevice_devs (id : Nat) (d : Device) : (s.setDevice id d).devs = s.devs.set id d := rfl
@[simp] theorem setDevice_map (id : Nat) (d : Device) : (s.setDevice id d).map = s.map := rfl
@[simp] theorem setDevice_trace (id : Nat) (d : Device) : (s.setDevice id d).trace = s.trace := rfl
@[simp] theorem setDevice_fault (id : Nat) (d : Device) : (s.setDevice id d).fault = s.fault := rfl
@[simp] theorem setDevice_config (id : Nat) (d : Device) : (s.setDevice id d).config = s.config := rfl

@[simp] theorem mark_a (a : Addr) (v : Byte) : (s.mark a v).a = s.a := rfl
@[simp] theorem mark_x (a : Addr) (v : Byte) : (s.mark a v).x = s.x := rfl
@[simp] theorem mark_y (a : Addr) (v : Byte) : (s.mark a v).y = s.y := rfl
@[simp] theorem mark_sp (a : Addr) (v : Byte) : (s.mark a v).sp = s.sp := rfl
@[simp] theorem mark_p (a : Addr) (v : Byte) : (s.mark a v).p = s.p := rfl
@[simp] theorem mark_pc (a : Addr) (v : Byte) : (s.mark a v).pc = s.pc := rfl
@[simp] theorem mark_devs (a : Addr) (v : Byte) : (s.mark a v).devs = s.devs := rfl
@[simp] theorem mark_map (a : Addr) (v : Byte) : (s.mark a v).map = s.map := rfl
@[simp] theorem mark_trace (a : Addr) (v : Byte) : (s.mark a v).trace = s.trace := rfl
@[simp] theorem mark_fault (a : Addr) (v : Byte) : (s.mark a v).fault = some ⟨a, v⟩ := rfl
@[simp] theorem mark_config (a : Addr) (v : Byte) : (s.mark a v).config = s.config := rfl

@[simp] theorem unknownOpcode_a (op : Byte) (opaddr : Addr) : (unknownOpcode op opaddr s).a = s.a := rfl
@[simp] theorem unknownOpcode_x (op : Byte) (opaddr : Addr) : (unknownOpcode op opaddr s).x = s.x := rfl
@[simp] theorem unknownOpcode_y (op : Byte) (opaddr : Addr) : (unknownOpcode op opaddr s).y = s.y := rfl
@[simp] theorem unknownOpcode_sp (op : Byte) (opaddr : Addr) : (unknownOpcode op opaddr s).sp = s.sp := rfl
@[simp] theorem unknownOpcode_p (op : Byte) (opaddr : Addr) : (unknownOpcode op opaddr s).p = s.p := rfl
@[simp] theorem unknownOpcode_pc (op : Byte) (opaddr : Addr) : (unknownOpcode op opaddr s).pc = s.pc := rfl
@[simp] theorem unknownOpcode_devs (op : Byte) (opaddr : Addr) : (unknownOpcode op opaddr s).devs = s.devs := rfl
@[simp] theorem unknownOpcode_map (op : Byte) (opaddr : Addr) : (unknownOpcode op opaddr s).map = s.map := rfl
@[simp] theorem unknownOpcode_trace (op : Byte) (opaddr : Addr) : (unknownOpcode op opaddr s).trace = s.trace ++ [⟨op, opaddr⟩] := rfl
@[simp] theorem unknownOpcode_fault (op : Byte) (opaddr : Addr) : (unknownOpcode op opaddr s).fault = s.fault := rfl
@[simp] theorem unknownOpcode_config (op : Byte) (opaddr : Addr) : (unknownOpcode op opaddr s).config = s.config := rfl

@[simp] theorem skipBreakBytes_a : (skipBreakBytes s).a = s.a := rfl
@[simp] theorem skipBreakBytes_x : (skipBreakBytes s).x = s.x := rfl
@[simp] theorem skipBreakBytes_y : (skipBreakBytes s).y = s.y := rfl
@[simp] theorem skipBreakBytes_sp : (skipBreakBytes s).sp = s.sp := rfl
@[simp] theorem skipBreakBytes_p : (skipBreakBytes s).p = s.p := rfl
@[simp] theorem skipBreakBytes_pc : (skipBreakBytes s).pc = s.pc + BitVec.ofNat 16 s.config.brkPcSkip.val := rfl
@[simp] theorem skipBreakBytes_devs : (skipBreakBytes s).devs = s.devs := rfl
@[simp] theorem skipBreakBytes_map : (skipBreakBytes s).map = s.map := rfl
@[simp] theorem skipBreakBytes_trace : (skipBreakBytes s).trace = s.trace := rfl
@[simp] theorem skipBreakBytes_fault : (skipBreakBytes s).fault = s.fault := rfl
@[simp] theorem skipBreakBytes_config : (skipBreakBytes s).config = s.config := rfl

@[simp] theorem disableInterrupts_a : (disableInterrupts s).a = s.a := rfl
@[simp] theorem disableInterrupts_x : (disableInterrupts s).x = s.x := rfl
@[simp] theorem disableInterrupts_y : (disableInterrupts s).y = s.y := rfl
@[simp] theorem disableInterrupts_sp : (disableInterrupts s).sp = s.sp := rfl
@[simp] theorem disableInterrupts_p : (disableInterrupts s).p = setFlag s.p .interruptDisable true := rfl
@[simp] theorem disableInterrupts_pc : (disableInterrupts s).pc = s.pc := rfl
@[simp] theorem disableInterrupts_devs : (disableInterrupts s).devs = s.devs := rfl
@[simp] theorem disableInterrupts_map : (disableInterrupts s).map = s.map := rfl
@[simp] theorem disableInterrupts_trace : (disableInterrupts s).trace = s.trace := rfl
@[simp] theorem disableInterrupts_fault : (disableInterrupts s).fault = s.fault := rfl
@[simp] theorem disableInterrupts_config : (disableInterrupts s).config = s.config := rfl

/-! ### How an action ends -/

variable (t : State) (k : State → Effect)

@[simp] theorem done_andThen : (Effect.done t).andThen k = k t := rfl
@[simp] theorem raised_andThen : (Effect.raised t).andThen k = .raised t := rfl
@[simp] theorem done_state : (Effect.done t).state = t := rfl
@[simp] theorem raised_state : (Effect.raised t).state = t := rfl
@[simp] theorem done_outcome : (Effect.done t).outcome = .next t := rfl
@[simp] theorem raised_outcome : (Effect.raised t).outcome = .next t := rfl

end Sys2Proof.Machine
end

