-- ==== Sys2Proof/Laws/Bus.lean ====
section
/-! SUPPORT. The laws of devices and the Bus: what one access can do, which it cannot, and which bytes it leaves alone. -/

namespace Sys2Proof.Machine

/-! ### Devices -/

/-- What no access changes of a device: whether it is a RAM, a ROM or a peripheral, and a store's last offset. -/
def Device.shape : Device → Nat × Nat
  | .ram last _ => (0, last)
  | .rom last _ => (1, last)
  | .peripheral _ _ => (2, 0)

@[simp] theorem Device.read_shape (off : Nat) (d : Device) : (d.read off).2.shape = d.shape := by cases d <;> rfl

@[simp] theorem Device.write_shape (off : Nat) (v : Byte) (d : Device) : (d.write off v).shape = d.shape := by
  cases d <;> rfl

theorem Device.read_wf (off : Nat) (d : Device) (h : d.wf = true) : (d.read off).2.wf = true := by
  cases d <;> exact h

theorem Device.write_wf (off : Nat) (v : Byte) (d : Device) (h : d.wf = true) : (d.write off v).wf = true := by
  cases d with
  | ram last m => exact Memory.write_wf last _ v m (Nat.lt_succ_iff.mp (Nat.mod_lt off (Nat.succ_pos last))) h
  | rom last m => exact h
  | peripheral kind inner => rfl

/-- A read of a RAM or ROM leaves it alone. -/
theorem Device.read_plain (off : Nat) (d : Device) (h : d.shape.1 ≠ 2) : (d.read off).2 = d := by
  cases d with
  | ram last m => rfl
  | rom last m => rfl
  | peripheral kind inner => exact absurd rfl h

/-! ### The device table -/

theorem device_setDevice (s : State) (id j : Nat) (d : Device) :
    (s.setDevice id d).device j = if j = id ∧ id < s.devs.length then d else s.device j := by
  simp only [State.device, State.setDevice, List.getD_eq_getElem?_getD, List.getElem?_set]
  by_cases hj : j = id
  · subst hj
    by_cases hl : j < s.devs.length
    · simp [hl]
    · simp [hl]
  · simp [hj, Ne.symm hj]

@[simp] theorem device_setDevice_other (s : State) (id j : Nat) (d : Device) (h : j ≠ id) :
    (s.setDevice id d).device j = s.device j := by simp [device_setDevice, h]

theorem device_setDevice_same (s : State) (id : Nat) (d : Device) (h : id < s.devs.length) :
    (s.setDevice id d).device id = d := by simp [device_setDevice, h]

/-- A number that names no device stands for a peripheral, so a RAM or ROM is really in the table. -/
theorem device_in_table (s : State) (id : Nat) (h : (s.device id).shape.1 ≠ 2) : id < s.devs.length := by
  by_contra hl
  have hn : s.devs[id]? = none := List.getElem?_eq_none_iff.mpr (by omega)
  exact h (by simp [State.device, List.getD_eq_getElem?_getD, hn, Device.shape])

/-- Putting a device back as it is changes nothing. -/
@[simp] theorem setDevice_device (s : State) (id : Nat) : s.setDevice id (s.device id) = s := by
  have : s.devs.set id (s.device id) = s.devs := by
    apply List.ext_getElem? fun k => ?_
    simp only [List.getElem?_set, State.device, List.getD_eq_getElem?_getD]
    split
    · next hk =>
      subst hk
      split
      · next hl => simp [hl]
      · next hl => simp; omega
    · rfl
  simp [State.setDevice, this]

/-- Two device tables in which every place has the same kind of device. -/
def SameShape (s t : State) : Prop := t.map = s.map ∧ ∀ id, (t.device id).shape = (s.device id).shape

theorem SameShape.refl (s : State) : SameShape s s := ⟨rfl, fun _ => rfl⟩

theorem SameShape.trans {s t u : State} (h : SameShape s t) (k : SameShape t u) : SameShape s u :=
  ⟨k.1.trans h.1, fun id => (k.2 id).trans (h.2 id)⟩

theorem SameShape.of_devs {s t : State} (hm : t.map = s.map) (hd : t.devs = s.devs) : SameShape s t :=
  ⟨hm, fun id => by simp [State.device, hd]⟩

theorem sameShape_setDevice (s : State) (id : Nat) (d : Device) (h : d.shape = (s.device id).shape) :
    SameShape s (s.setDevice id d) := by
  refine ⟨rfl, fun j => ?_⟩
  rw [device_setDevice]
  split
  · next hj => rw [h, hj.1]
  · rfl

/-! ### One access -/

/-- Everything a bus read can do: the registers, MAP and the bookkeeping stay, and each place of the device table keeps
its kind of device. -/
theorem memRead_after (a : Addr) (s : State) :
    ∃ devs, (memRead a s).2 = { s with devs := devs } ∧ devs.length = s.devs.length := by
  unfold memRead
  split
  · exact ⟨_, rfl, by simp⟩
  · exact ⟨s.devs, rfl, rfl⟩

section
variable (b : Addr) (s : State)
@[simp] theorem memRead_a : (memRead b s).2.a = s.a := by obtain ⟨d, h, _⟩ := memRead_after b s; rw [h]
@[simp] theorem memRead_x : (memRead b s).2.x = s.x := by obtain ⟨d, h, _⟩ := memRead_after b s; rw [h]
@[simp] theorem memRead_y : (memRead b s).2.y = s.y := by obtain ⟨d, h, _⟩ := memRead_after b s; rw [h]
@[simp] theorem memRead_sp : (memRead b s).2.sp = s.sp := by obtain ⟨d, h, _⟩ := memRead_after b s; rw [h]
@[simp] theorem memRead_p : (memRead b s).2.p = s.p := by obtain ⟨d, h, _⟩ := memRead_after b s; rw [h]
@[simp] theorem memRead_pc : (memRead b s).2.pc = s.pc := by obtain ⟨d, h, _⟩ := memRead_after b s; rw [h]
@[simp] theorem memRead_map : (memRead b s).2.map = s.map := by obtain ⟨d, h, _⟩ := memRead_after b s; rw [h]
@[simp] theorem memRead_trace : (memRead b s).2.trace = s.trace := by obtain ⟨d, h, _⟩ := memRead_after b s; rw [h]
@[simp] theorem memRead_fault : (memRead b s).2.fault = s.fault := by obtain ⟨d, h, _⟩ := memRead_after b s; rw [h]
@[simp] theorem memRead_config : (memRead b s).2.config = s.config := by obtain ⟨d, h, _⟩ := memRead_after b s; rw [h]
@[simp] theorem memRead_devs_length : (memRead b s).2.devs.length = s.devs.length := by
  obtain ⟨d, h, hl⟩ := memRead_after b s
  rw [h, ← hl]
end

/-- A read sees MAP and the devices only. -/
theorem memRead_congr (b : Addr) (s t : State) (hm : t.map = s.map) (hd : t.devs = s.devs) :
    memRead b t = ((memRead b s).1, { t with devs := (memRead b s).2.devs }) := by
  have hdev : ∀ id, t.device id = s.device id := fun id => by simp [State.device, hd]
  have hb : busMatch t.map b = busMatch s.map b := by rw [hm]
  unfold memRead
  rw [hb]
  cases busMatch s.map b with
  | none => simp [← hd]
  | some m => simp [hdev, State.setDevice, hd]

theorem memRead_sameShape (b : Addr) (s : State) : SameShape s (memRead b s).2 := by
  unfold memRead
  split
  · exact sameShape_setDevice s _ _ (by simp)
  · exact SameShape.refl s

/-- Everything a bus write can do, in the two ways it can end. -/
theorem memWrite_cases (a : Addr) (v : Byte) (s : State) :
    (storeOk s a = true ∧ memWrite a v s = .done (stored a v s)) ∨
    (storeOk s a = false ∧ s.config.unmappedWrite = .fault ∧ busMatch s.map a = none ∧
      memWrite a v s = .raised (s.mark a v)) := by
  unfold memWrite storeOk stored
  cases busMatch s.map a with
  | some m => exact .inl ⟨by simp, rfl⟩
  | none =>
    cases s.config.unmappedWrite with
    | drop => exact .inl ⟨by simp, rfl⟩
    | fault => exact .inr ⟨by simp, rfl, rfl, rfl⟩

theorem memWrite_of_storeOk {a : Addr} {s : State} (v : Byte) (h : storeOk s a = true) :
    memWrite a v s = .done (stored a v s) := by
  rcases memWrite_cases a v s with ⟨_, h'⟩ | ⟨h', _⟩
  · exact h'
  · simp [h] at h'

theorem memWrite_of_not_storeOk {a : Addr} {s : State} (v : Byte) (h : storeOk s a = false) :
    memWrite a v s = .raised (s.mark a v) := by
  rcases memWrite_cases a v s with ⟨h', _⟩ | ⟨_, _, _, h'⟩
  · simp [h] at h'
  · exact h'

theorem stored_after (a : Addr) (v : Byte) (s : State) :
    ∃ devs, stored a v s = { s with devs := devs } ∧ devs.length = s.devs.length := by
  unfold stored
  split
  · exact ⟨_, rfl, by simp⟩
  · exact ⟨s.devs, rfl, rfl⟩

section
variable (b : Addr) (v : Byte) (s : State)
@[simp] theorem stored_a : (stored b v s).a = s.a := by obtain ⟨d, h, _⟩ := stored_after b v s; rw [h]
@[simp] theorem stored_x : (stored b v s).x = s.x := by obtain ⟨d, h, _⟩ := stored_after b v s; rw [h]
@[simp] theorem stored_y : (stored b v s).y = s.y := by obtain ⟨d, h, _⟩ := stored_after b v s; rw [h]
@[simp] theorem stored_sp : (stored b v s).sp = s.sp := by obtain ⟨d, h, _⟩ := stored_after b v s; rw [h]
@[simp] theorem stored_p : (stored b v s).p = s.p := by obtain ⟨d, h, _⟩ := stored_after b v s; rw [h]
@[simp] theorem stored_pc : (stored b v s).pc = s.pc := by obtain ⟨d, h, _⟩ := stored_after b v s; rw [h]
@[simp] theorem stored_map : (stored b v s).map = s.map := by obtain ⟨d, h, _⟩ := stored_after b v s; rw [h]
@[simp] theorem stored_trace : (stored b v s).trace = s.trace := by obtain ⟨d, h, _⟩ := stored_after b v s; rw [h]
@[simp] theorem stored_fault : (stored b v s).fault = s.fault := by obtain ⟨d, h, _⟩ := stored_after b v s; rw [h]
@[simp] theorem stored_config : (stored b v s).config = s.config := by obtain ⟨d, h, _⟩ := stored_after b v s; rw [h]
@[simp] theorem stored_devs_length : (stored b v s).devs.length = s.devs.length := by
  obtain ⟨d, h, hl⟩ := stored_after b v s
  rw [h, ← hl]
end

/-- Whether a write completes depends on MAP and the policy only. -/
theorem storeOk_congr {s t : State} (b : Addr) (hm : t.map = s.map) (hc : t.config = s.config) :
    storeOk t b = storeOk s b := by simp [storeOk, hm, hc]

/-- A write sees MAP and the devices only. -/
theorem stored_congr (b : Addr) (v : Byte) (s t : State) (hm : t.map = s.map) (hd : t.devs = s.devs) :
    stored b v t = { t with devs := (stored b v s).devs } := by
  have hdev : ∀ id, t.device id = s.device id := fun id => by simp [State.device, hd]
  have hb : busMatch t.map b = busMatch s.map b := by rw [hm]
  unfold stored
  rw [hb]
  cases busMatch s.map b with
  | none => simp [← hd]
  | some m => simp [hdev, hd]

theorem stored_devs_congr (b : Addr) (v : Byte) (s t : State) (hm : t.map = s.map) (hd : t.devs = s.devs) :
    (stored b v t).devs = (stored b v s).devs := by rw [stored_congr b v s t hm hd]

theorem stored_sameShape (a : Addr) (v : Byte) (s : State) : SameShape s (stored a v s) := by
  unfold stored
  split
  · exact sameShape_setDevice s _ _ (by simp)
  · exact SameShape.refl s

/-! ### Places -/

/-- A device's shape decides its place of an offset. -/
theorem busSite_eq (s : State) (a : Addr) :
    busSite s a = (busMatch s.map a).map fun m =>
      (m.dev, if (s.device m.dev).shape.1 = 2 then 0
        else (a.toNat - m.base.toNat) % ((s.device m.dev).shape.2 + 1)) := by
  unfold busSite
  congr 1
  funext m
  cases s.device m.dev <;> rfl

theorem busSite_congr {s t : State} (h : SameShape s t) (a : Addr) : busSite t a = busSite s a := by
  simp [busSite_eq, h.1, h.2]

theorem sameSite_congr {s t : State} (h : SameShape s t) (a b : Addr) : sameSite t a b = sameSite s a b := by
  simp [sameSite, busSite_congr h]

theorem isPeripheral_eq (s : State) (a : Addr) :
    isPeripheral s a = (busMatch s.map a).any fun m => (s.device m.dev).shape.1 == 2 := by
  unfold isPeripheral deviceAt
  cases busMatch s.map a with
  | none => rfl
  | some m => cases h : s.device m.dev <;> simp [h, Device.shape]

theorem isRam_eq (s : State) (a : Addr) :
    isRam s a = (busMatch s.map a).any fun m => (s.device m.dev).shape.1 == 0 := by
  unfold isRam deviceAt
  cases busMatch s.map a with
  | none => rfl
  | some m => cases h : s.device m.dev <;> simp [h, Device.shape]

theorem isRom_eq (s : State) (a : Addr) :
    isRom s a = (busMatch s.map a).any fun m => (s.device m.dev).shape.1 == 1 := by
  unfold isRom deviceAt
  cases busMatch s.map a with
  | none => rfl
  | some m => cases h : s.device m.dev <;> simp [h, Device.shape]

theorem isPeripheral_congr {s t : State} (h : SameShape s t) (a : Addr) : isPeripheral t a = isPeripheral s a := by
  simp [isPeripheral_eq, h.1, h.2]

theorem isRam_congr {s t : State} (h : SameShape s t) (a : Addr) : isRam t a = isRam s a := by
  simp [isRam_eq, h.1, h.2]

theorem isRom_congr {s t : State} (h : SameShape s t) (a : Addr) : isRom t a = isRom s a := by
  simp [isRom_eq, h.1, h.2]

/-- A RAM address is no peripheral's. -/
theorem not_peripheral_of_isRam {s : State} {a : Addr} (h : isRam s a = true) : isPeripheral s a = false := by
  rw [isRam_eq] at h
  rw [isPeripheral_eq]
  cases hm : busMatch s.map a with
  | none => rfl
  | some m =>
    simp only [hm, Option.any_some, beq_iff_eq] at h
    simp [h]

/-- A RAM address is mapped, so a write there completes. -/
theorem storeOk_of_isRam {s : State} {a : Addr} (h : isRam s a = true) : storeOk s a = true := by
  rw [isRam_eq] at h
  cases hm : busMatch s.map a with
  | none => simp [hm] at h
  | some m => simp [storeOk, hm]

/-! ### What a read sees after an access -/

theorem peek_none {s : State} {b : Addr} (h : busMatch s.map b = none) : peek b s = 0xFF#8 := by
  simp [peek, memRead, h]

theorem peek_some {s : State} {b : Addr} {m : Mapping} (h : busMatch s.map b = some m) :
    peek b s = ((s.device m.dev).read (b.toNat - m.base.toNat)).1 := by
  simp [peek, memRead, h, Mapping.offset]

theorem peek_congr {s t : State} (b : Addr) (hm : t.map = s.map) (hd : t.devs = s.devs) : peek b t = peek b s := by
  simp [peek, memRead_congr b s t hm hd]

/-- A read outside the peripherals changes nothing. -/
theorem memRead_plain {s : State} {a : Addr} (h : isPeripheral s a = false) : memRead a s = (peek a s, s) := by
  refine Prod.ext rfl ?_
  unfold memRead
  rw [isPeripheral_eq] at h
  cases hm : busMatch s.map a with
  | none => rfl
  | some m =>
    simp only [hm, Option.any_some, beq_eq_false_iff_ne] at h
    show s.setDevice m.dev ((s.device m.dev).read _).2 = s
    rw [Device.read_plain _ _ h, setDevice_device]

/-- A change of one device leaves the bytes of all other places alone: those of other devices, and in a store those at
other offsets. -/
theorem peek_setDevice {s : State} {id : Nat} {d : Device} {b : Addr}
    (h : ∀ m, busMatch s.map b = some m → m.dev = id → id < s.devs.length →
      (d.read (b.toNat - m.base.toNat)).1 = ((s.device id).read (b.toNat - m.base.toNat)).1) :
    peek b (s.setDevice id d) = peek b s := by
  cases hm : busMatch s.map b with
  | none => rw [peek_none (s := s) hm, peek_none (by simpa using hm)]
  | some m =>
    rw [peek_some (s := s) hm, peek_some (m := m) (by simpa using hm), device_setDevice]
    split
    · next hid => rw [h m hm hid.1 hid.2, hid.1]
    · rfl

/-- The frame of a write. -/
theorem peek_stored_other {s : State} {a b : Addr} (v : Byte) (h : sameSite s a b = false) :
    peek b (stored a v s) = peek b s := by
  unfold stored
  cases ha : busMatch s.map a with
  | none => rfl
  | some ma =>
    refine peek_setDevice fun mb hb hid _ => ?_
    rw [sameSite, busSite_eq, busSite_eq, ha, hb] at h
    simp only [Option.map_some, Option.isSome_some, Bool.true_and, beq_eq_false_iff_ne, ne_eq, Option.some.injEq,
      Prod.mk.injEq, hid, true_and] at h
    cases hd : s.device ma.dev with
    | ram last m =>
      simp only [hd, Device.shape] at h
      simp only [Device.write, Device.read]
      rw [Memory.read_write, if_neg]
      intro hoff
      exact h (by simpa using hoff.symm)
    | rom last m => rfl
    | peripheral kind inner => simp [hd, Device.shape] at h

/-- The byte written to a RAM is read at every address of that byte. -/
theorem peek_stored_same {s : State} {a b : Addr} (v : Byte) (hr : isRam s a = true) (h : sameSite s a b = true) :
    peek b (stored a v s) = v := by
  rw [isRam_eq] at hr
  cases ha : busMatch s.map a with
  | none => simp [ha] at hr
  | some ma =>
    simp only [ha, Option.any_some, beq_iff_eq] at hr
    have hin : ma.dev < s.devs.length := device_in_table s ma.dev (by simp [hr])
    cases hb : busMatch s.map b with
    | none => simp [sameSite, busSite, ha, hb] at h
    | some mb =>
      rw [sameSite, busSite_eq, busSite_eq, ha, hb] at h
      simp only [Option.map_some, Option.isSome_some, Bool.true_and, beq_iff_eq, Option.some.injEq,
        Prod.mk.injEq] at h
      obtain ⟨hdev, hoff⟩ := h
      rw [peek_some (m := mb) (by simpa using hb)]
      unfold stored
      simp only [ha]
      show (((s.setDevice ma.dev _).device mb.dev).read _).1 = v
      rw [← hdev, device_setDevice_same _ _ _ hin]
      rw [← hdev, hr] at hoff
      cases hd : s.device ma.dev with
      | ram last m =>
        simp only [hd, Device.shape] at hoff
        simp only [Device.write, Device.read]
        rw [Memory.read_write, if_pos (by simpa using hoff.symm)]
      | rom last m => simp [hd, Device.shape] at hr
      | peripheral kind inner => simp [hd, Device.shape] at hr

theorem sameSite_comm (s : State) (a b : Addr) : sameSite s a b = sameSite s b a := by
  unfold sameSite
  rw [Bool.eq_iff_iff]
  simp only [Bool.and_eq_true, beq_iff_eq]
  constructor <;> rintro ⟨h, e⟩ <;> exact ⟨e ▸ h, e.symm⟩

/-- Every mapped address shares its place with itself. -/
theorem sameSite_self {s : State} {a : Addr} (h : isRam s a = true) : sameSite s a a = true := by
  rw [isRam_eq] at h
  cases hm : busMatch s.map a with
  | none => simp [hm] at h
  | some m => simp [sameSite, busSite, hm]

/-- The frame of a read: only the bytes of the peripheral it reads can change. -/
theorem peek_afterRead {s : State} {a b : Addr} (h : isPeripheral s a = true → sameSite s a b = false) :
    peek b (afterRead a s) = peek b s := by
  cases hp : isPeripheral s a with
  | false => rw [afterRead, memRead_plain hp]
  | true =>
    have h := h hp
    unfold afterRead memRead
    cases ha : busMatch s.map a with
    | none => rfl
    | some ma =>
      refine peek_setDevice fun mb hb hid _ => ?_
      rw [sameSite, busSite_eq, busSite_eq, ha, hb] at h
      rw [isPeripheral_eq, ha] at hp
      simp only [Option.any_some, beq_iff_eq] at hp
      simp [hid, hp] at h

/-- A RAM's byte and a peripheral are different places. -/
theorem sameSite_of_isPeripheral_isRam {s : State} {a b : Addr} (hp : isPeripheral s a = true) (hb : isRam s b = true) :
    sameSite s a b = false := by
  cases h : sameSite s a b with
  | false => rfl
  | true =>
    simp only [sameSite, Bool.and_eq_true, beq_iff_eq, busSite_eq] at h
    rw [isRam_eq] at hb
    rw [isPeripheral_eq] at hp
    cases ha : busMatch s.map a <;> cases hb' : busMatch s.map b <;> simp_all

/-- No read changes a byte of a RAM. -/
theorem peek_afterRead_of_isRam {s w : State} {a b : Addr} (h : SameShape s w) (hb : isRam s b = true) :
    peek b (afterRead a w) = peek b w :=
  peek_afterRead fun hp => by
    rw [isPeripheral_congr h] at hp
    rw [sameSite_congr h]
    exact sameSite_of_isPeripheral_isRam hp hb

/-! ### Well-formed devices -/

theorem devs_wf_set {devs : List Device} (id : Nat) {d : Device} (hd : d.wf = true) (h : devs.all Device.wf = true) :
    (devs.set id d).all Device.wf = true := by
  rw [List.all_eq_true] at h ⊢
  intro e he
  rcases List.mem_or_eq_of_mem_set he with he | he
  · exact h e he
  · exact he ▸ hd

theorem device_wf {s : State} (id : Nat) (h : s.devs.all Device.wf = true) : (s.device id).wf = true := by
  rw [List.all_eq_true] at h
  unfold State.device
  rw [List.getD_eq_getElem?_getD]
  cases hg : s.devs[id]? with
  | none => rfl
  | some d => exact h d (List.mem_of_getElem? hg)

theorem memRead_devs_wf (a : Addr) {s : State} (h : s.devs.all Device.wf = true) :
    (memRead a s).2.devs.all Device.wf = true := by
  unfold memRead
  split
  · exact devs_wf_set _ (Device.read_wf _ _ (device_wf _ h)) h
  · exact h

theorem stored_devs_wf (a : Addr) (v : Byte) {s : State} (h : s.devs.all Device.wf = true) :
    (stored a v s).devs.all Device.wf = true := by
  unfold stored
  split
  · exact devs_wf_set _ (Device.write_wf _ _ _ (device_wf _ h)) h
  · exact h

end Sys2Proof.Machine
end

