-- ==== Sys2Proof/Laws/Stack.lean ====
section
/-! SUPPORT. The stack operations said once: what each answers, and the two ways a push can end. -/

namespace Sys2Proof.Machine

theorem push_of_storeOk {s : State} (v : Byte) (h : storeOk s (stackAddr s.sp) = true) :
    push v s = .done { stored (stackAddr s.sp) v s with sp := s.sp - 1 } := by
  simp [push, memWrite_of_storeOk v h]

theorem push_of_not_storeOk {s : State} (v : Byte) (h : storeOk s (stackAddr s.sp) = false) :
    push v s = .raised (s.mark (stackAddr s.sp) v) := by
  simp [push, memWrite_of_not_storeOk v h]

/-- A pull, written with the reads of the state before it. -/
theorem pull_eq (s : State) :
    pull s = (peek (stackAddr (s.sp + 1)) s, { afterRead (stackAddr (s.sp + 1)) s with sp := s.sp + 1 }) := by
  unfold pull
  rw [memRead_congr (stackAddr (s.sp + 1)) s { s with sp := s.sp + 1 } rfl rfl]
  simp [peek, afterRead]

/-- Two pushes in a row, the high byte first: all three ways they can end. -/
theorem pushAddr_of_storeOk {s : State} (w : Addr) (h1 : storeOk s (stackAddr s.sp) = true)
    (h2 : storeOk s (stackAddr (s.sp - 1)) = true) :
    pushAddr w s = .done
      { stored (stackAddr (s.sp - 1)) (loByte w) (stored (stackAddr s.sp) (hiByte w) s) with sp := s.sp - 2 } := by
  have h2' : storeOk { stored (stackAddr s.sp) (hiByte w) s with sp := s.sp - 1 } (stackAddr (s.sp - 1)) = true := by
    rw [storeOk_congr (s := s) _ (by simp) (by simp)]; exact h2
  have hsp : s.sp - 1 - 1 = s.sp - 2 := by bv_omega
  rw [pushAddr, push_of_storeOk _ h1, done_andThen, push_of_storeOk _ h2']
  refine congrArg Effect.done (State.ext ?_ ?_ ?_ hsp ?_ ?_
    (stored_devs_congr _ _ (stored (stackAddr s.sp) (hiByte w) s) _ rfl rfl) ?_ ?_ ?_ ?_) <;> simp

theorem pushAddr_of_first_raising {s : State} (w : Addr) (h : storeOk s (stackAddr s.sp) = false) :
    pushAddr w s = .raised (s.mark (stackAddr s.sp) (hiByte w)) := by
  rw [pushAddr, push_of_not_storeOk _ h, raised_andThen]

theorem pushAddr_of_second_raising {s : State} (w : Addr) (h1 : storeOk s (stackAddr s.sp) = true)
    (h2 : storeOk s (stackAddr (s.sp - 1)) = false) :
    pushAddr w s = .raised
      { stored (stackAddr s.sp) (hiByte w) s with
        sp := s.sp - 1, fault := some ⟨stackAddr (s.sp - 1), loByte w⟩ } := by
  have h2' : storeOk { stored (stackAddr s.sp) (hiByte w) s with sp := s.sp - 1 } (stackAddr (s.sp - 1)) = false := by
    rw [storeOk_congr (s := s) _ (by simp) (by simp)]; exact h2
  rw [pushAddr, push_of_storeOk _ h1, done_andThen, push_of_not_storeOk _ h2']
  rfl

/-- Two pulls in a row, the low byte first. -/
theorem pullAddr_eq (s : State) :
    pullAddr s =
      (joinBytes (peek (stackAddr (s.sp + 2)) (afterRead (stackAddr (s.sp + 1)) s)) (peek (stackAddr (s.sp + 1)) s),
       { afterRead (stackAddr (s.sp + 2)) (afterRead (stackAddr (s.sp + 1)) s) with sp := s.sp + 2 }) := by
  have hsp : s.sp + 1 + 1 = s.sp + 2 := by bv_omega
  simp only [pullAddr, pull_eq, hsp]
  have hm : ({ afterRead (stackAddr (s.sp + 1)) s with sp := s.sp + 1 } : State).map =
    (afterRead (stackAddr (s.sp + 1)) s).map := rfl
  have hr := memRead_congr (stackAddr (s.sp + 2)) (afterRead (stackAddr (s.sp + 1)) s)
    { afterRead (stackAddr (s.sp + 1)) s with sp := s.sp + 1 } rfl rfl
  obtain ⟨d, hd, _⟩ := memRead_after (stackAddr (s.sp + 2)) (afterRead (stackAddr (s.sp + 1)) s)
  simp only [peek, afterRead] at hr hd ⊢
  rw [hr, hd]

/-- What any action that ends without a raise, or with one, leaves of MAP, the parameters, the trace and the kinds of the devices:
pushing keeps them all. -/
theorem push_keeps (v : Byte) (s : State) :
    SameShape s (push v s).state ∧ (push v s).state.config = s.config ∧ (push v s).state.trace = s.trace ∧
      (push v s).state.devs.length = s.devs.length := by
  cases h : storeOk s (stackAddr s.sp) with
  | true =>
    rw [push_of_storeOk v h]
    exact ⟨(stored_sameShape _ v s).trans (.of_devs rfl rfl), by simp, by simp, by simp⟩
  | false =>
    rw [push_of_not_storeOk v h]
    exact ⟨.of_devs rfl rfl, rfl, rfl, rfl⟩

/-! ### Bytes and addresses -/

theorem toNat_joinBytes (hi lo : Byte) : (joinBytes hi lo).toNat = hi.toNat * 256 + lo.toNat := by
  have := lo.isLt
  simp only [joinBytes, BitVec.toNat_append]
  rw [Nat.shiftLeft_eq, Nat.mul_comm, ← Nat.two_pow_add_eq_or_of_lt (by omega) hi.toNat]

theorem joinBytes_hiByte_loByte (w : Addr) : joinBytes (hiByte w) (loByte w) = w := by
  apply BitVec.eq_of_toNat_eq
  have := w.isLt
  rw [toNat_joinBytes]
  simp [hiByte, loByte, Nat.shiftRight_eq_div_pow]
  omega

theorem hiByte_joinBytes (hi lo : Byte) : hiByte (joinBytes hi lo) = hi := by
  apply BitVec.eq_of_toNat_eq
  have h1 := hi.isLt
  have h2 := lo.isLt
  simp only [hiByte, BitVec.extractLsb'_toNat, toNat_joinBytes, Nat.shiftRight_eq_div_pow]
  omega

theorem loByte_joinBytes (hi lo : Byte) : loByte (joinBytes hi lo) = lo := by
  apply BitVec.eq_of_toNat_eq
  have h2 := lo.isLt
  simp only [loByte, BitVec.extractLsb'_toNat, toNat_joinBytes, Nat.shiftRight_zero]
  omega

end Sys2Proof.Machine
end

