-- ==== Sys2Proof/Laws/Fetch.lean ====
section
/-! SUPPORT. The fetch operations said once, over any memory and over memory whose reads change nothing. -/

namespace Sys2Proof.Machine

theorem fetch8_eq (s : State) : fetch8 s = (peek s.pc s, { afterRead s.pc s with pc := s.pc + 1 }) := rfl

/-- A Fetch8 from plain memory moves PC and changes nothing else. -/
theorem fetch8_plain {s : State} (h : isPeripheral s s.pc = false) :
    fetch8 s = (peek s.pc s, { s with pc := s.pc + 1 }) := by
  simp [fetch8, memRead_plain h]

/-- A Fetch8 keeps every register but PC, and the kinds of the devices. -/
theorem fetch8_keeps (s : State) :
    SameShape s (fetch8 s).2 ∧ ∃ devs, (fetch8 s).2 = { s with devs := devs, pc := s.pc + 1 } ∧ devs.length = s.devs.length := by
  refine ⟨(memRead_sameShape s.pc s).trans (.of_devs rfl rfl), ?_⟩
  obtain ⟨d, hd, hl⟩ := memRead_after s.pc s
  exact ⟨d, by simp [fetch8, hd], hl⟩

/-- What the bytes fetched at PC make the step's fetch be, if they are the encoding of a well-formed instruction of the
row's format. One case for each format (30_encoding.md R71). -/
theorem fetchInstr_f1 {s : State} {i : Instr} (h : formOf s.config.xyStoreModes (peek s.pc s) = some (.f1 i)) :
    fetchInstr s = (.instr i, (fetch8 s).2) := by
  have h' : formOf s.config.xyStoreModes (fetch8 s).1 = some (.f1 i) := h
  simp [fetchInstr, h']

theorem fetchInstr_f2 {s : State} {mk : Byte → Instr} (h : formOf s.config.xyStoreModes (peek s.pc s) = some (.f2 mk)) :
    fetchInstr s = (.instr (mk (fetch8 (fetch8 s).2).1), (fetch8 (fetch8 s).2).2) := by
  have h' : formOf s.config.xyStoreModes (fetch8 s).1 = some (.f2 mk) := h
  simp [fetchInstr, h']

theorem fetchInstr_f3 {s : State} {mk : Addr → Instr} (h : formOf s.config.xyStoreModes (peek s.pc s) = some (.f3 mk)) :
    fetchInstr s = (.instr (mk (fetch16 (fetch8 s).2).1), (fetch16 (fetch8 s).2).2) := by
  have h' : formOf s.config.xyStoreModes (fetch8 s).1 = some (.f3 mk) := h
  simp [fetchInstr, h']

theorem fetchInstr_unknown {s : State} (h : formOf s.config.xyStoreModes (peek s.pc s) = none) :
    fetchInstr s = (.unknown (peek s.pc s), (fetch8 s).2) := by
  have h' : formOf s.config.xyStoreModes (fetch8 s).1 = none := h
  simp only [fetchInstr, h']
  rfl

/-- The whole fetch keeps every register but PC, MAP, the bookkeeping, the parameters and the kinds of the devices. -/
theorem fetchInstr_keeps (s : State) :
    SameShape s (fetchInstr s).2 ∧
      ∃ devs pc, (fetchInstr s).2 = { s with devs := devs, pc := pc } ∧ devs.length = s.devs.length := by
  obtain ⟨h1, d1, e1, l1⟩ := fetch8_keeps s
  obtain ⟨h2, d2, e2, l2⟩ := fetch8_keeps (fetch8 s).2
  obtain ⟨h3, d3, e3, l3⟩ := fetch8_keeps (fetch8 (fetch8 s).2).2
  have k2 : ∃ devs pc, (fetch8 (fetch8 s).2).2 = { s with devs := devs, pc := pc } ∧ devs.length = s.devs.length :=
    ⟨d2, s.pc + 1 + 1, by rw [e2, e1], by rw [l2, e1]; exact l1⟩
  have k3 : ∃ devs pc, (fetch8 (fetch8 (fetch8 s).2).2).2 = { s with devs := devs, pc := pc } ∧
      devs.length = s.devs.length := by
    obtain ⟨dd, pp, ee, ll⟩ := k2
    exact ⟨d3, pp + 1, by rw [e3, ee], by rw [l3, ee]; exact ll⟩
  cases hf : formOf s.config.xyStoreModes (peek s.pc s) with
  | none => rw [fetchInstr_unknown hf]; exact ⟨h1, d1, s.pc + 1, e1, l1⟩
  | some f =>
    cases f with
    | f1 i => rw [fetchInstr_f1 hf]; exact ⟨h1, d1, s.pc + 1, e1, l1⟩
    | f2 mk => rw [fetchInstr_f2 hf]; exact ⟨h1.trans h2, k2⟩
    | f3 mk => rw [fetchInstr_f3 hf]; exact ⟨(h1.trans h2).trans h3, k3⟩

end Sys2Proof.Machine
end

