-- ==== Sys2Proof/Laws/Exec.lean ====
section
/-! SUPPORT. What every instruction and every step keeps, said once for all of them. -/

namespace Sys2Proof.Machine

/-- MAP, the parameters, the event trace and the kind of every device are as before; a canonical device table stays canonical;
and the fault mark is as before, or names an unmapped write under the Fault policy. -/
structure Keeps (s t : State) : Prop where
  shape  : SameShape s t
  config : t.config = s.config
  trace  : t.trace = s.trace
  length : t.devs.length = s.devs.length
  wf     : s.devs.all Device.wf = true → t.devs.all Device.wf = true
  fault  : t.fault = s.fault ∨
    (s.config.unmappedWrite = .fault ∧ ∃ a v, t.fault = some ⟨a, v⟩ ∧ busMatch s.map a = none)

theorem Keeps.refl (s : State) : Keeps s s := ⟨.refl s, rfl, rfl, rfl, id, .inl rfl⟩

theorem Keeps.trans {s t u : State} (h : Keeps s t) (k : Keeps t u) : Keeps s u where
  shape := h.shape.trans k.shape
  config := k.config.trans h.config
  trace := k.trace.trans h.trace
  length := k.length.trans h.length
  wf := fun hw => k.wf (h.wf hw)
  fault := by
    rcases k.fault with hk | ⟨hp, a, v, hf, hn⟩
    · rw [hk]; exact h.fault
    · exact .inr ⟨by rw [← h.config]; exact hp, a, v, hf, by rw [← h.shape.1]; exact hn⟩

/-- A change of registers keeps all of it. -/
theorem Keeps.regs {s t : State} (hm : t.map = s.map) (hd : t.devs = s.devs) (hc : t.config = s.config)
    (ht : t.trace = s.trace) (hf : t.fault = s.fault) : Keeps s t :=
  ⟨.of_devs hm hd, hc, ht, by rw [hd], by rw [hd]; exact id, .inl hf⟩

theorem memRead_keeps (a : Addr) (s : State) : Keeps s (memRead a s).2 where
  shape := memRead_sameShape a s
  config := by simp
  trace := by simp
  length := by simp
  wf := memRead_devs_wf a
  fault := .inl (by simp)

theorem memWrite_keeps (a : Addr) (v : Byte) (s : State) : Keeps s (memWrite a v s).state := by
  rcases memWrite_cases a v s with ⟨_, h⟩ | ⟨_, hp, hn, h⟩
  · rw [h]
    exact ⟨stored_sameShape a v s, by simp, by simp, by simp, stored_devs_wf a v, .inl (by simp)⟩
  · rw [h]
    exact ⟨.of_devs rfl rfl, rfl, rfl, rfl, id, .inr ⟨hp, a, v, rfl, hn⟩⟩

/-- An action keeps what both its halves keep, whether or not the first raises. -/
theorem andThen_keeps {s : State} {e : Effect} {k : State → Effect} (h : Keeps s e.state)
    (hk : ∀ t, Keeps t (k t).state) : Keeps s (e.andThen k).state := by
  cases e with
  | done t => exact h.trans (hk t)
  | raised t => exact h

theorem push_keeps_all (v : Byte) (s : State) : Keeps s (push v s).state :=
  andThen_keeps (memWrite_keeps _ v s) fun _ => .regs rfl rfl rfl rfl rfl

theorem pushAddr_keeps (w : Addr) (s : State) : Keeps s (pushAddr w s).state :=
  andThen_keeps (push_keeps_all _ s) fun t => push_keeps_all _ t

theorem pull_keeps (s : State) : Keeps s (pull s).2 :=
  (Keeps.regs (s := s) (t := { s with sp := s.sp + 1 }) rfl rfl rfl rfl rfl).trans (memRead_keeps _ _)

theorem pullAddr_keeps (s : State) : Keeps s (pullAddr s).2 := (pull_keeps s).trans (pull_keeps _)

theorem loadVector_keeps (s : State) : Keeps s (loadVector s) :=
  ((memRead_keeps vectorLo s).trans (memRead_keeps vectorHi _)).trans (.regs rfl rfl rfl rfl rfl)

theorem takeBreak_keeps (s : State) : Keeps s (takeBreak s).state :=
  (Keeps.regs (s := s) (t := skipBreakBytes s) rfl rfl rfl rfl rfl).trans <|
    andThen_keeps (pushAddr_keeps _ _) fun t =>
      andThen_keeps (push_keeps_all _ t) fun w =>
        (Keeps.regs (s := w) (t := disableInterrupts w) rfl rfl rfl rfl rfl).trans (loadVector_keeps _)

theorem returnFromBreak_keeps (s : State) : Keeps s (returnFromBreak s) :=
  have h : Keeps s { (pull s).2 with p := (pull s).1 } := (pull_keeps s).trans (.regs rfl rfl rfl rfl rfl)
  (h.trans (pullAddr_keeps _)).trans (.regs rfl rfl rfl rfl rfl)

theorem indirectTarget_keeps (ptr : Addr) (s : State) : Keeps s (indirectTarget ptr s).2 :=
  (memRead_keeps ptr s).trans (memRead_keeps _ _)

/-- Every instruction answers a next state, which keeps all of it. -/
theorem exec_keeps (i : Instr) (s : State) : ∃ t, exec i s = .next t ∧ Keeps s t := by
  cases i with
  | staZp zp => exact ⟨_, rfl, memWrite_keeps _ _ s⟩
  | staAbs addr => exact ⟨_, rfl, memWrite_keeps _ _ s⟩
  | stxZp zp => exact ⟨_, rfl, memWrite_keeps _ _ s⟩
  | stxAbs addr => exact ⟨_, rfl, memWrite_keeps _ _ s⟩
  | styZp zp => exact ⟨_, rfl, memWrite_keeps _ _ s⟩
  | styAbs addr => exact ⟨_, rfl, memWrite_keeps _ _ s⟩
  | pha => exact ⟨_, rfl, push_keeps_all _ s⟩
  | php => exact ⟨_, rfl, push_keeps_all _ s⟩
  | pla => exact ⟨_, rfl, (pull_keeps s).trans (.regs rfl rfl rfl rfl rfl)⟩
  | plp => exact ⟨_, rfl, (pull_keeps s).trans (.regs rfl rfl rfl rfl rfl)⟩
  | jmpInd ptr => exact ⟨_, rfl, (indirectTarget_keeps ptr s).trans (.regs rfl rfl rfl rfl rfl)⟩
  | jsr target =>
    exact ⟨_, rfl, andThen_keeps (pushAddr_keeps _ s) fun _ => .regs rfl rfl rfl rfl rfl⟩
  | rts => exact ⟨_, rfl, (pullAddr_keeps s).trans (.regs rfl rfl rfl rfl rfl)⟩
  | brk => exact ⟨_, rfl, takeBreak_keeps s⟩
  | rti => exact ⟨_, rfl, returnFromBreak_keeps s⟩
  | ldaImm imm => exact ⟨_, rfl, .regs rfl rfl rfl rfl rfl⟩
  | ldxImm imm => exact ⟨_, rfl, .regs rfl rfl rfl rfl rfl⟩
  | ldyImm imm => exact ⟨_, rfl, .regs rfl rfl rfl rfl rfl⟩
  | tax => exact ⟨_, rfl, .regs rfl rfl rfl rfl rfl⟩
  | txa => exact ⟨_, rfl, .regs rfl rfl rfl rfl rfl⟩
  | tay => exact ⟨_, rfl, .regs rfl rfl rfl rfl rfl⟩
  | tya => exact ⟨_, rfl, .regs rfl rfl rfl rfl rfl⟩
  | tsx => exact ⟨_, rfl, .regs rfl rfl rfl rfl rfl⟩
  | txs => exact ⟨_, rfl, .regs rfl rfl rfl rfl rfl⟩
  | jmpAbs target => exact ⟨_, rfl, .regs rfl rfl rfl rfl rfl⟩
  | nop => exact ⟨_, rfl, .refl s⟩

/-- The fetch keeps all of it too. -/
theorem fetchInstr_keeps_all (s : State) : Keeps s (fetchInstr s).2 := by
  have f8 : ∀ u : State, Keeps u (fetch8 u).2 := fun u =>
    (memRead_keeps u.pc u).trans (.regs rfl rfl rfl rfl rfl)
  cases hf : formOf s.config.xyStoreModes (peek s.pc s) with
  | none => rw [fetchInstr_unknown hf]; exact f8 s
  | some f =>
    cases f with
    | f1 i => rw [fetchInstr_f1 hf]; exact f8 s
    | f2 mk => rw [fetchInstr_f2 hf]; exact (f8 s).trans (f8 _)
    | f3 mk => rw [fetchInstr_f3 hf]; exact ((f8 s).trans (f8 _)).trans (f8 _)

/-- The step inverted: a next state comes from a state without a fault mark, and is an instruction's meaning after the fetch, or the
one event of an unrecognized opcode. -/
theorem step_cases {s t : State} (h : step s = .next t) :
    s.fault = none ∧
    ((∃ i u, fetchInstr s = (.instr i, u) ∧ exec i u = .next t) ∨
     (∃ op u, fetchInstr s = (.unknown op, u) ∧ t = unknownOpcode op s.pc u)) := by
  unfold step at h
  split at h
  · cases h
  · next hf =>
    refine ⟨hf, ?_⟩
    split at h
    · next i u hi => exact .inl ⟨i, u, hi, h⟩
    · next op u hu => cases h; exact .inr ⟨op, u, hu, rfl⟩

/-- Apart from the trace, every step keeps all of it. -/
theorem step_keeps {s t : State} (h : step s = .next t) : Keeps s { t with trace := s.trace } := by
  obtain ⟨_, h | h⟩ := step_cases h
  · obtain ⟨i, u, hf, he⟩ := h
    obtain ⟨t', he', hk⟩ := exec_keeps i u
    rw [he] at he'
    cases he'
    have hu : Keeps s u := by simpa [hf] using fetchInstr_keeps_all s
    have ht : t.trace = s.trace := (hu.trans hk).trace
    have : ({ t with trace := s.trace } : State) = t := by rw [← ht]
    rw [this]; exact hu.trans hk
  · obtain ⟨op, u, hf, rfl⟩ := h
    have hu : Keeps s u := by simpa [hf] using fetchInstr_keeps_all s
    exact hu.trans ⟨.of_devs rfl rfl, rfl, hu.trace.symm, rfl, id, .inl rfl⟩

end Sys2Proof.Machine
end

