-- ==== Sys2Proof/Laws/Flags.lean ====
section
/-! SUPPORT. Reading a flag after it, or another one, is written, and what SetZN leaves. -/

namespace Sys2Proof.Machine

theorem getFlag_setFlag (p : Byte) (f g : Flag) (b : Bool) :
    getFlag (setFlag p f b) g = if g = f then b else getFlag p g := by
  cases b <;> cases f <;> cases g <;> simp [getFlag, setFlag, Flag.mask, Flag.bit]

theorem withZN_zNFrom (v p : Byte) : ZNFrom v p (withZN v p) := by
  refine ⟨?_, ?_, fun f h1 h2 => ?_⟩
  · simp [withZN, getFlag_setFlag]; rfl
  · simp [withZN, getFlag_setFlag, BitVec.msb_eq_getLsbD_last]
  · simp [withZN, getFlag_setFlag, h1, h2]

/-- The byte PHP and BRK push, as 43_stack.md R141 writes it. -/
theorem pushedStatus_eq (p : Byte) : pushedStatus p = p ||| 0x10#8 := rfl

end Sys2Proof.Machine
end

