-- ==== Sys2Proof/Laws/PerInstr.lean ====
section
/-! SUPPORT. Per-instruction laws. The family `Sys2Proof.Laws.Encoding`: an instruction's encoding begins with an opcode byte whose row,
where the instruction is well-formed, has the encoding's length. -/

namespace Sys2Proof.Laws.Encoding

/-- The encoding is 1 to 3 bytes, and its first byte selects a row of just that length in every core that has the
instruction (30_encoding.md R70, R76). -/
def Statement (i : Instr) : Prop :=
  1 ≤ (encode i).length ∧ (encode i).length ≤ 3 ∧
  ∀ m : StoreModes, Instr.wf m i = true →
    ∃ op f, (encode i).head? = some op ∧ formOf m op = some f ∧ f.length = (encode i).length

theorem ldaImm (imm : Byte) : Statement (.ldaImm imm) :=
  ⟨by simp [encode], by simp [encode], fun _ _ => ⟨_, _, rfl, rfl, rfl⟩⟩

theorem ldxImm (imm : Byte) : Statement (.ldxImm imm) :=
  ⟨by simp [encode], by simp [encode], fun _ _ => ⟨_, _, rfl, rfl, rfl⟩⟩

theorem ldyImm (imm : Byte) : Statement (.ldyImm imm) :=
  ⟨by simp [encode], by simp [encode], fun _ _ => ⟨_, _, rfl, rfl, rfl⟩⟩

theorem staZp (zp : Byte) : Statement (.staZp zp) :=
  ⟨by simp [encode], by simp [encode], fun _ _ => ⟨_, _, rfl, rfl, rfl⟩⟩

theorem staAbs (addr : Addr) : Statement (.staAbs addr) :=
  ⟨by simp [encode], by simp [encode], fun _ _ => ⟨_, _, rfl, rfl, rfl⟩⟩

theorem stxZp (zp : Byte) : Statement (.stxZp zp) :=
  ⟨by simp [encode], by simp [encode], fun m h => ⟨_, .f2 .stxZp, rfl, by simp only [Instr.wf] at h; simp [formOf, opcodePresent, opcodeTable, h], rfl⟩⟩

theorem stxAbs (addr : Addr) : Statement (.stxAbs addr) :=
  ⟨by simp [encode], by simp [encode], fun m h => ⟨_, .f3 .stxAbs, rfl, by simp only [Instr.wf] at h; simp [formOf, opcodePresent, opcodeTable, h], rfl⟩⟩

theorem styZp (zp : Byte) : Statement (.styZp zp) :=
  ⟨by simp [encode], by simp [encode], fun m h => ⟨_, .f2 .styZp, rfl, by simp only [Instr.wf] at h; simp [formOf, opcodePresent, opcodeTable, h], rfl⟩⟩

theorem styAbs (addr : Addr) : Statement (.styAbs addr) :=
  ⟨by simp [encode], by simp [encode], fun m h => ⟨_, .f3 .styAbs, rfl, by simp only [Instr.wf] at h; simp [formOf, opcodePresent, opcodeTable, h], rfl⟩⟩

theorem tax : Statement (.tax) :=
  ⟨by simp [encode], by simp [encode], fun _ _ => ⟨_, _, rfl, rfl, rfl⟩⟩

theorem txa : Statement (.txa) :=
  ⟨by simp [encode], by simp [encode], fun _ _ => ⟨_, _, rfl, rfl, rfl⟩⟩

theorem tay : Statement (.tay) :=
  ⟨by simp [encode], by simp [encode], fun _ _ => ⟨_, _, rfl, rfl, rfl⟩⟩

theorem tya : Statement (.tya) :=
  ⟨by simp [encode], by simp [encode], fun _ _ => ⟨_, _, rfl, rfl, rfl⟩⟩

theorem tsx : Statement (.tsx) :=
  ⟨by simp [encode], by simp [encode], fun _ _ => ⟨_, _, rfl, rfl, rfl⟩⟩

theorem txs : Statement (.txs) :=
  ⟨by simp [encode], by simp [encode], fun _ _ => ⟨_, _, rfl, rfl, rfl⟩⟩

theorem pha : Statement (.pha) :=
  ⟨by simp [encode], by simp [encode], fun _ _ => ⟨_, _, rfl, rfl, rfl⟩⟩

theorem php : Statement (.php) :=
  ⟨by simp [encode], by simp [encode], fun _ _ => ⟨_, _, rfl, rfl, rfl⟩⟩

theorem pla : Statement (.pla) :=
  ⟨by simp [encode], by simp [encode], fun _ _ => ⟨_, _, rfl, rfl, rfl⟩⟩

theorem plp : Statement (.plp) :=
  ⟨by simp [encode], by simp [encode], fun _ _ => ⟨_, _, rfl, rfl, rfl⟩⟩

theorem jmpAbs (target : Addr) : Statement (.jmpAbs target) :=
  ⟨by simp [encode], by simp [encode], fun _ _ => ⟨_, _, rfl, rfl, rfl⟩⟩

theorem jmpInd (ptr : Addr) : Statement (.jmpInd ptr) :=
  ⟨by simp [encode], by simp [encode], fun _ _ => ⟨_, _, rfl, rfl, rfl⟩⟩

theorem jsr (target : Addr) : Statement (.jsr target) :=
  ⟨by simp [encode], by simp [encode], fun _ _ => ⟨_, _, rfl, rfl, rfl⟩⟩

theorem rts : Statement (.rts) :=
  ⟨by simp [encode], by simp [encode], fun _ _ => ⟨_, _, rfl, rfl, rfl⟩⟩

theorem brk : Statement (.brk) :=
  ⟨by simp [encode], by simp [encode], fun _ _ => ⟨_, _, rfl, rfl, rfl⟩⟩

theorem rti : Statement (.rti) :=
  ⟨by simp [encode], by simp [encode], fun _ _ => ⟨_, _, rfl, rfl, rfl⟩⟩

theorem nop : Statement (.nop) :=
  ⟨by simp [encode], by simp [encode], fun _ _ => ⟨_, _, rfl, rfl, rfl⟩⟩

end Sys2Proof.Laws.Encoding
end

