-- ==== Sys2Proof/Laws/Trap.lean ====
section
/-! SUPPORT. The trap entry, its vector and the return, each said once: all the ways they can end. -/

namespace Sys2Proof.Machine

theorem loadVector_eq (s : State) :
    loadVector s =
      { afterRead vectorHi (afterRead vectorLo s) with
        pc := joinBytes (peek vectorHi (afterRead vectorLo s)) (peek vectorLo s) } := rfl

/-- The vector depends on MAP and the devices alone. -/
theorem loadVector_of_same {w x : State} (hm : x.map = w.map) (hd : x.devs = w.devs) :
    loadVector x =
      { x with
        pc := joinBytes (peek vectorHi (afterRead vectorLo w)) (peek vectorLo w)
        devs := (afterRead vectorHi (afterRead vectorLo w)).devs } := by
  have r1 := memRead_congr vectorLo w x hm hd
  have r2 := memRead_congr vectorHi (memRead vectorLo w).2 { x with devs := (memRead vectorLo w).2.devs } (by simp [hm]) rfl
  unfold loadVector
  dsimp only
  rw [r1]; dsimp only; rw [r2]; rfl

theorem toNat_skipBreakBytes_pc (s : State) :
    (skipBreakBytes s).pc.toNat = (s.pc.toNat + s.config.brkPcSkip.val) % 65536 := by
  simp [BitVec.toNat_add]

/-- Skipping bytes changes nothing a store looks at. -/
theorem storeOk_skipBreakBytes (s : State) (a : Addr) : storeOk (skipBreakBytes s) a = storeOk s a :=
  storeOk_congr a rfl rfl

theorem takeBreak_of_storeOk {s w : State} {ret : Addr} (h1 : storeOk s (stackAddr s.sp) = true)
    (h2 : storeOk s (stackAddr (s.sp - 1)) = true) (h3 : storeOk s (stackAddr (s.sp - 2)) = true)
    (hret : ret = (skipBreakBytes s).pc)
    (hw : w = stored (stackAddr (s.sp - 2)) (pushedStatus s.p)
              (stored (stackAddr (s.sp - 1)) (loByte ret) (stored (stackAddr s.sp) (hiByte ret) s))) :
    takeBreak s = .done
      { afterRead vectorHi (afterRead vectorLo w) with
        sp := s.sp - 3
        p := setFlag s.p .interruptDisable true
        pc := joinBytes (peek vectorHi (afterRead vectorLo w)) (peek vectorLo w) } := by
  have wm : w.map = s.map := by subst hw; simp
  subst hret
  have e1 := pushAddr_of_storeOk (s := skipBreakBytes s) (skipBreakBytes s).pc
    (by rw [storeOk_skipBreakBytes]; exact h1) (by rw [storeOk_skipBreakBytes]; exact h2)
  unfold takeBreak
  dsimp only
  rw [e1, done_andThen, push_of_storeOk _ (by rw [storeOk_congr (s := s) _ (by simp) (by simp)]; exact h3), done_andThen]
  congr 1
  rw [loadVector_of_same (w := w) (by simp [wm])]
  · subst hw
    apply State.ext <;> simp [afterRead]
    bv_omega
  · subst hw
    simp only [disableInterrupts_devs, stored_p, skipBreakBytes_p, skipBreakBytes_sp]
    apply stored_devs_congr _ _ _ _ (by simp)
    apply stored_devs_congr _ _ _ _ (by simp)
    exact stored_devs_congr _ _ _ _ rfl rfl

theorem takeBreak_of_first_raising {s : State} (h : storeOk s (stackAddr s.sp) = false) :
    takeBreak s =
      .raised ((skipBreakBytes s).mark (stackAddr s.sp) (hiByte (skipBreakBytes s).pc)) := by
  unfold takeBreak
  dsimp only
  rw [pushAddr_of_first_raising _ (by rw [storeOk_skipBreakBytes]; exact h), raised_andThen]
  rfl

theorem takeBreak_of_second_raising {s : State} (h1 : storeOk s (stackAddr s.sp) = true)
    (h2 : storeOk s (stackAddr (s.sp - 1)) = false) :
    takeBreak s = .raised
      { stored (stackAddr s.sp) (hiByte (skipBreakBytes s).pc) (skipBreakBytes s) with
        sp := s.sp - 1, fault := some ⟨stackAddr (s.sp - 1), loByte (skipBreakBytes s).pc⟩ } := by
  unfold takeBreak
  dsimp only
  rw [pushAddr_of_second_raising _ (by rw [storeOk_skipBreakBytes]; exact h1) (by rw [storeOk_skipBreakBytes]; exact h2),
    raised_andThen]
  rfl

theorem takeBreak_of_third_raising {s : State} (h1 : storeOk s (stackAddr s.sp) = true)
    (h2 : storeOk s (stackAddr (s.sp - 1)) = true) (h3 : storeOk s (stackAddr (s.sp - 2)) = false) :
    takeBreak s = .raised
      { stored (stackAddr (s.sp - 1)) (loByte (skipBreakBytes s).pc)
          (stored (stackAddr s.sp) (hiByte (skipBreakBytes s).pc) (skipBreakBytes s)) with
        sp := s.sp - 2, fault := some ⟨stackAddr (s.sp - 2), pushedStatus s.p⟩ } := by
  unfold takeBreak
  dsimp only
  rw [pushAddr_of_storeOk _ (by rw [storeOk_skipBreakBytes]; exact h1) (by rw [storeOk_skipBreakBytes]; exact h2),
    done_andThen, push_of_not_storeOk _ (by rw [storeOk_congr (s := s) _ (by simp) (by simp)]; exact h3), raised_andThen]
  congr 1
  apply State.ext <;> simp

theorem returnFromBreak_eq (s : State) :
    returnFromBreak s =
      { (pullAddr { (pull s).2 with p := (pull s).1 }).2 with
        pc := (pullAddr { (pull s).2 with p := (pull s).1 }).1 } := rfl

end Sys2Proof.Machine
end

