-- ==== Sys2Proof/Laws/TwoRuns.lean ====
section
/-! SUPPORT. Two runs that differ in one stored byte: what a write and a read do to the agreement of the rest. -/

namespace Sys2Proof.Machine

/-- Two states in one MAP and with devices of one kind, whose devices and bytes agree but for what the address `a` reaches. -/
structure Agree (s : State) (a : Addr) (t u : State) : Prop where
  st : SameShape s t
  su : SameShape s u
  len : u.devs.length = t.devs.length
  dev : ∀ id, (∀ m, busMatch s.map a = some m → id ≠ m.dev) → u.device id = t.device id
  pk : ∀ b, sameSite s a b = false → peek b u = peek b t

theorem Agree.of_same {s t u : State} (a : Addr) (h : SameShape s t) (hm : u.map = t.map) (hd : u.devs = t.devs) : Agree s a t u :=
  ⟨h, h.trans (.of_devs hm hd), by rw [hd], fun _ _ => by simp [State.device, hd], fun b _ => peek_congr b hm hd⟩

theorem Agree.congr {s t u t' u' : State} {a : Addr} (h : Agree s a t u) (m1 : t'.map = t.map) (d1 : t'.devs = t.devs)
    (m2 : u'.map = u.map) (d2 : u'.devs = u.devs) : Agree s a t' u' :=
  ⟨h.st.trans (.of_devs m1 d1), h.su.trans (.of_devs m2 d2), by rw [d1, d2]; exact h.len,
   fun id hid => by have := h.dev id hid; simpa [State.device, d1, d2] using this,
   fun b hb => by rw [peek_congr b m1 d1, peek_congr b m2 d2]; exact h.pk b hb⟩

/-- Two writes of different bytes at one address. -/
theorem Agree.of_stored {s t u : State} (a : Addr) (v v' : Byte) (h : SameShape s t) (hm : u.map = t.map) (hd : u.devs = t.devs) :
    Agree s a (stored a v t) (stored a v' u) := by
  have hu : SameShape s u := h.trans (.of_devs hm hd)
  refine ⟨h.trans (stored_sameShape _ _ _), hu.trans (stored_sameShape _ _ _), by simp [hd], fun id hid => ?_, fun b hb => ?_⟩
  · have e : u.device id = t.device id := by simp [State.device, hd]
    unfold stored
    rw [hm, h.1]
    cases hb : busMatch s.map a with
    | none => exact e
    | some m =>
      have := hid m hb
      exact (device_setDevice_other u m.dev id _ this).trans (e.trans (device_setDevice_other t m.dev id _ this).symm)
  · rw [peek_stored_other _ (by rw [sameSite_congr hu]; exact hb), peek_stored_other _ (by rw [sameSite_congr h]; exact hb)]
    exact peek_congr b hm hd

/-- A read at any address, the differing one too, keeps the agreement. -/
theorem Agree.read {s t u : State} {a : Addr} (b : Addr) (h : Agree s a t u) : Agree s a (afterRead b t) (afterRead b u) := by
  have ht := h.st.trans (memRead_sameShape b t)
  have hu := h.su.trans (memRead_sameShape b u)
  cases hb : busMatch s.map b with
  | none =>
    have e1 : afterRead b t = t := by simp [afterRead, memRead, h.st.1, hb]
    have e2 : afterRead b u = u := by simp [afterRead, memRead, h.su.1, hb]
    rw [e1, e2]; exact h
  | some m =>
    have e1 : afterRead b t = t.setDevice m.dev ((t.device m.dev).read (m.offset b)).2 := by simp [afterRead, memRead, h.st.1, hb]
    have e2 : afterRead b u = u.setDevice m.dev ((u.device m.dev).read (m.offset b)).2 := by simp [afterRead, memRead, h.su.1, hb]
    by_cases hD : ∃ ma, busMatch s.map a = some ma ∧ m.dev = ma.dev
    · obtain ⟨ma, hma, hd⟩ := hD
      by_cases hp : isPeripheral s b = true
      · refine ⟨ht, hu, by simp [afterRead, h.len], fun id hid => ?_, fun c hc => ?_⟩
        · have : id ≠ m.dev := by rw [hd]; exact hid ma hma
          rw [e1, e2, device_setDevice_other _ _ _ _ this, device_setDevice_other _ _ _ _ this]; exact h.dev id hid
        · have hbc : isPeripheral s b = true → sameSite s b c = false := by
            intro _
            cases hx : sameSite s b c with
            | false => rfl
            | true =>
              exfalso
              rw [isPeripheral_eq, hb] at hp
              simp only [sameSite, Bool.and_eq_true, beq_iff_eq, busSite_eq, hb, hma] at hx hc
              cases hcm : busMatch s.map c with
              | none => simp [hcm] at hx
              | some mc =>
                simp_all
          rw [peek_afterRead (by rw [isPeripheral_congr h.su, sameSite_congr h.su]; exact hbc),
            peek_afterRead (by rw [isPeripheral_congr h.st, sameSite_congr h.st]; exact hbc)]
          exact h.pk c hc
      · have hp' : isPeripheral s b = false := by simpa using hp
        have e3 : afterRead b t = t := by unfold afterRead; rw [memRead_plain (by rw [isPeripheral_congr h.st]; exact hp')]
        have e4 : afterRead b u = u := by unfold afterRead; rw [memRead_plain (by rw [isPeripheral_congr h.su]; exact hp')]
        rw [e3, e4]; exact h
    · have hne : ∀ ma, busMatch s.map a = some ma → m.dev ≠ ma.dev := fun ma hma hd => hD ⟨ma, hma, hd⟩
      have hdev := h.dev m.dev hne
      have dv : ∀ id, (∀ ma, busMatch s.map a = some ma → id ≠ ma.dev) → (afterRead b u).device id = (afterRead b t).device id := by
        intro id hid
        rw [e1, e2, device_setDevice, device_setDevice, h.len, hdev, h.dev id hid]
      refine ⟨ht, hu, by simp [afterRead, h.len], dv, fun c hc => ?_⟩
      cases hcm : busMatch s.map c with
      | none => rw [peek_none (s := afterRead b u) (by unfold afterRead; rw [hu.1]; exact hcm), peek_none (s := afterRead b t) (by unfold afterRead; rw [ht.1]; exact hcm)]
      | some mc =>
        by_cases hcd : mc.dev = m.dev
        · rw [peek_some (s := afterRead b u) (m := mc) (by unfold afterRead; rw [hu.1]; exact hcm), peek_some (s := afterRead b t) (m := mc) (by unfold afterRead; rw [ht.1]; exact hcm), hcd, dv m.dev hne]
        · have := h.pk c hc
          rw [peek_some (m := mc) (by rw [h.su.1]; exact hcm), peek_some (m := mc) (by rw [h.st.1]; exact hcm)] at this
          rw [peek_some (s := afterRead b u) (m := mc) (by unfold afterRead; rw [hu.1]; exact hcm), peek_some (s := afterRead b t) (m := mc) (by unfold afterRead; rw [ht.1]; exact hcm), e1, e2,
            device_setDevice_other _ _ _ _ hcd, device_setDevice_other _ _ _ _ hcd]; exact this

theorem Agree.agreeButStatusAt {s t u : State} {a : Addr} (h : Agree s a t u) (e : u = { t with p := u.p, pc := u.pc, devs := u.devs, fault := u.fault })
    (f : (u.fault.map fun e => e.addr) = (t.fault.map fun e => e.addr)) : AgreeButStatusAt s a t u :=
  ⟨e, f, h.len, h.dev, h.pk⟩

end Sys2Proof.Machine
end

