-- ==== Sys2Proof/Tests/Slice0.lean ====
section
/-! SUPPORT. The model's own tests. Expected results are the spec's: 30_encoding.md R73 for encodings, the vectors of
95_test_vectors.md section 2 (named V-…) for steps. After them, for every statement with hypotheses, a witness that meets them. -/

namespace Sys2Proof.Tests
open Sys2Proof Sys2Proof.Machine

/-- The configuration CFG of 95_test_vectors.md section 0 after reset: one RAM over the whole space, holding the given
cells and 0x00 elsewhere. -/
def cfg (cells : Memory) : State := { State.reset with map := [⟨0x0000#16, 65536, 0⟩], devs := [.ram 65535 cells] }

/-- The next state, if the outcome is one. -/
def nextOf : Host.Outcome State Fault Refusal → Option State
  | .next s => some s
  | .fault _ => none
  | .refused _ => none

/-- Fields of the state one step leads to. -/
def got {α : Type} (s : State) (look : State → α) : Option α := (nextOf (step s)).map look

/-! ### Well-formedness: each check refuses an ill-formed term -/

theorem test_wf_refuses_stxZp : Instr.wf ⟨false, true⟩ (.stxZp 0x10#8) = false := by decide
theorem test_wf_refuses_styZp : Instr.wf ⟨false, true⟩ (.styZp 0x10#8) = false := by decide
theorem test_wf_refuses_stxAbs : Instr.wf ⟨true, false⟩ (.stxAbs 0x1234#16) = false := by decide
theorem test_wf_refuses_styAbs : Instr.wf ⟨true, false⟩ (.styAbs 0x1234#16) = false := by decide
theorem test_wf_refuses_zero_spReset : Config.wf { Config.standard with spReset := 0x00#8 } = false := by decide
theorem test_wf_standard : Config.wf Config.standard = true := by decide
theorem test_wf_refuses_unsorted_memory : Memory.wf 65535 [(5, 0x01#8), (4, 0x01#8)] = false := by decide
theorem test_wf_refuses_listed_blank : Memory.wf 65535 [(5, 0x00#8)] = false := by decide
theorem test_wf_refuses_offset_outside : Memory.wf 15 [(16, 0x01#8)] = false := by decide

/-! ### Decoding: every row of R73, its word written out (byte 0 in bits 7:0) -/

theorem test_decode_loads :
    decodeTableWord 16 0x41A9 = some (.ldaImm 0x41#8) ∧
    decodeTableWord 16 0xC0A2 = some (.ldxImm 0xC0#8) ∧
    decodeTableWord 16 0xC3A0 = some (.ldyImm 0xC3#8) := by decide
theorem test_decode_zero_page_stores :
    decodeTableWord 16 0x2085 = some (.staZp 0x20#8) ∧
    decodeTableWord 16 0x8086 = some (.stxZp 0x80#8) ∧
    decodeTableWord 16 0xFF84 = some (.styZp 0xFF#8) := by decide
theorem test_decode_absolute_stores :
    decodeTableWord 24 0x02008D = some (.staAbs 0x0200#16) ∧
    decodeTableWord 24 0x12348E = some (.stxAbs 0x1234#16) ∧
    decodeTableWord 24 0x01FF8C = some (.styAbs 0x01FF#16) := by decide
theorem test_decode_transfers :
    decodeTableWord 8 0xAA = some .tax ∧ decodeTableWord 8 0x8A = some .txa ∧ decodeTableWord 8 0xA8 = some .tay ∧
    decodeTableWord 8 0x98 = some .tya ∧ decodeTableWord 8 0xBA = some .tsx ∧ decodeTableWord 8 0x9A = some .txs := by
  decide
theorem test_decode_stack :
    decodeTableWord 8 0x48 = some .pha ∧ decodeTableWord 8 0x08 = some .php ∧
    decodeTableWord 8 0x68 = some .pla ∧ decodeTableWord 8 0x28 = some .plp := by decide
theorem test_decode_jumps :
    decodeTableWord 24 0x06004C = some (.jmpAbs 0x0600#16) ∧
    decodeTableWord 24 0x01FF6C = some (.jmpInd 0x01FF#16) ∧
    decodeTableWord 24 0x060020 = some (.jsr 0x0600#16) ∧
    decodeTableWord 8 0x60 = some .rts := by decide
theorem test_decode_break_and_nop :
    decodeTableWord 8 0x00 = some .brk ∧ decodeTableWord 8 0x40 = some .rti ∧ decodeTableWord 8 0xEA = some .nop := by
  decide
/-- Opcodes of the real 6502 that the core lacks (R77), and R78's removals. -/
theorem test_decode_rejects :
    decodeTableWord 16 0x0169 = none ∧ decodeTableWord 8 0xE8 = none ∧ decodeTableWord 8 0xFF = none ∧
    (formOf ⟨false, true⟩ 0x86#8).isNone = true ∧ (formOf ⟨false, true⟩ 0x84#8).isNone = true ∧
    (formOf ⟨true, false⟩ 0x8E#8).isNone = true ∧ (formOf ⟨true, false⟩ 0x8C#8).isNone = true ∧
    (formOf ⟨false, false⟩ 0x85#8).isSome = true := by decide
theorem test_opcodes_distinct : (opcodeTable.map Prod.fst).Nodup := by decide

/-! ### Loads (section 2.3) -/

/-- V-LD6: Z and N cleared, the rest of P kept. -/
theorem test_lda_keeps_other_flags :
    got { cfg [(0, 0xA9#8), (1, 0x01#8)] with p := 0xFF#8 } (fun t => (t.a, t.p, t.pc)) =
      some (0x01#8, 0x7D#8, 0x0002#16) := by decide
/-- V-LD7. -/
theorem test_ldx_zero :
    got { cfg [(0, 0xA2#8)] with x := 0x55#8, p := 0x82#8 } (fun t => (t.x, t.p)) = some (0x00#8, 0x02#8) := by decide
/-- V-LD8. -/
theorem test_ldy_negative :
    got { cfg [(0, 0xA0#8), (1, 0xC3#8)] with p := 0x02#8 } (fun t => (t.y, t.p)) = some (0xC3#8, 0x80#8) := by decide
/-- V-LD10: an unmapped operand byte reads 0xFF. -/
theorem test_lda_unmapped_operand :
    got { State.reset with map := [⟨0x0000#16, 1, 0⟩], devs := [.ram 0 [(0, 0xA9#8)]] } (fun t => (t.a, t.p)) =
      some (0xFF#8, 0x80#8) := by decide

/-! ### Stores (section 2.4) -/

/-- V-ST1. -/
theorem test_sta_zp :
    got { cfg [(0, 0x85#8), (1, 0x20#8)] with a := 0x41#8 } (fun t => (peek 0x0020#16 t, t.p, t.pc)) =
      some (0x41#8, 0x00#8, 0x0002#16) := by decide
/-- V-ST2: no flag is written. -/
theorem test_sta_abs :
    got { cfg [(0, 0x8D#8), (2, 0x02#8), (0x200, 0x77#8)] with p := 0x80#8 } (fun t => (peek 0x0200#16 t, t.p, t.pc)) =
      some (0x00#8, 0x80#8, 0x0003#16) := by decide
/-- V-ST9: under Fault the mark is set, PC is past the instruction, and no later step runs. -/
theorem test_sta_abs_fault :
    got { State.reset with
            map := [⟨0x0000#16, 0x100, 0⟩], devs := [.ram 0xFF [(0, 0x8D#8), (2, 0x40#8)]], a := 0x5A#8
            config := { Config.standard with unmappedWrite := .fault } }
        (fun t => (t.fault, t.pc, (nextOf (step t)).isNone, decide (execute 9 t = t))) =
      some (some ⟨0x4000#16, 0x5A#8⟩, 0x0003#16, true, true) := by decide
/-- V-ST3. -/
theorem test_stx_zp :
    got { cfg [(0, 0x86#8), (1, 0x10#8)] with x := 0x07#8 } (fun t => peek 0x0010#16 t) = some 0x07#8 := by decide
/-- V-ST4. -/
theorem test_stx_abs :
    got { cfg [(0, 0x8E#8), (1, 0x34#8), (2, 0x12#8)] with x := 0xFF#8 } (fun t => peek 0x1234#16 t) =
      some 0xFF#8 := by decide
/-- V-ST5. -/
theorem test_sty_zp :
    got { cfg [(0, 0x84#8), (1, 0xFF#8)] with y := 0x80#8 } (fun t => peek 0x00FF#16 t) = some 0x80#8 := by decide
/-- V-ST6: storing 0x00 removes the cell, so the store stays canonical. -/
theorem test_sty_abs :
    got (cfg [(0, 0x8C#8), (1, 0xFF#8), (2, 0x01#8), (0x1FF, 0x55#8)]) (fun t => t.devs) =
      some [.ram 65535 [(0, 0x8C#8), (1, 0xFF#8), (2, 0x01#8)]] := by decide

/-! ### Transfers (section 2.5) -/

/-- V-TR9: only Z and N are written. -/
theorem test_tax :
    got { cfg [(0, 0xAA#8)] with a := 0x33#8, p := 0x4D#8 } (fun t => (t.x, t.p)) = some (0x33#8, 0x4D#8) := by decide
/-- V-TR2. -/
theorem test_txa :
    got { cfg [(0, 0x8A#8)] with a := 0x55#8 } (fun t => (t.a, t.p)) = some (0x00#8, 0x02#8) := by decide
/-- V-TR3. -/
theorem test_tay :
    got { cfg [(0, 0xA8#8)] with a := 0x41#8, p := 0x82#8 } (fun t => (t.y, t.p)) = some (0x41#8, 0x00#8) := by decide
/-- V-TR4. -/
theorem test_tya :
    got { cfg [(0, 0x98#8)] with y := 0xFF#8 } (fun t => (t.a, t.p)) = some (0xFF#8, 0x80#8) := by decide
/-- V-TR6. -/
theorem test_tsx :
    got { cfg [(0, 0xBA#8)] with sp := 0x00#8, x := 0x11#8, p := 0x80#8 } (fun t => (t.x, t.p)) =
      some (0x00#8, 0x02#8) := by decide
/-- V-TR8: no flag is written. -/
theorem test_txs :
    got { cfg [(0, 0x9A#8)] with x := 0xFF#8, sp := 0x10#8, p := 0x02#8 } (fun t => (t.sp, t.p)) =
      some (0xFF#8, 0x02#8) := by decide

/-! ### Stack, jumps and subroutines (section 2.6) -/

/-- V-SK2: SP wraps from 0x00. -/
theorem test_pha_wraps :
    got { cfg [(0, 0x48#8)] with sp := 0x00#8, a := 0x41#8 } (fun t => (peek 0x0100#16 t, t.sp)) =
      some (0x41#8, 0xFF#8) := by decide
/-- V-SK4: bit 5 is kept as it stands, Break is set in the pushed byte only. -/
theorem test_php :
    got { cfg [(0, 0x08#8)] with p := 0x20#8 } (fun t => (peek 0x01FF#16 t, t.sp, t.p)) =
      some (0x30#8, 0xFE#8, 0x20#8) := by decide
/-- V-SK6. -/
theorem test_pla_zero :
    got { cfg [(0, 0x68#8)] with sp := 0xFE#8, a := 0x77#8, p := 0x80#8 } (fun t => (t.a, t.p, t.sp)) =
      some (0x00#8, 0x02#8, 0xFF#8) := by decide
/-- V-SK7: SP wraps from 0xFF. -/
theorem test_pla_wraps :
    got (cfg [(0, 0x68#8), (0x100, 0x90#8)]) (fun t => (t.a, t.p, t.sp)) = some (0x90#8, 0x80#8, 0x00#8) := by decide
/-- V-SK9: the live Break bit is written. -/
theorem test_plp_break :
    got { cfg [(0, 0x28#8), (0x1FF, 0x10#8)] with sp := 0xFE#8 } (fun t => (t.p, t.sp)) = some (0x10#8, 0xFF#8) := by
  decide
/-- V-JP2: the operand straddles the top of memory. -/
theorem test_jmp_wraps :
    got { cfg [(0, 0x12#8), (0xFFFE, 0x4C#8), (0xFFFF, 0x34#8)] with pc := 0xFFFE#16 } (fun t => t.pc) =
      some 0x1234#16 := by decide
/-- V-JP3: the page wrap (0x5634 without it). -/
theorem test_jmpInd_page_wrap :
    got (cfg [(0, 0x6C#8), (1, 0xFF#8), (2, 0x01#8), (0x100, 0x12#8), (0x1FF, 0x34#8), (0x200, 0x56#8)])
        (fun t => t.pc) = some 0x1234#16 := by decide
/-- V-JP5: no wrap. -/
theorem test_jmpInd_same_page :
    got (cfg [(0, 0x6C#8), (1, 0xFE#8), (2, 0x12#8), (0x12FE, 0xCD#8), (0x12FF, 0xAB#8)]) (fun t => t.pc) =
      some 0xABCD#16 := by decide
/-- V-JS1. -/
theorem test_jsr :
    got (cfg [(0, 0x20#8), (2, 0x06#8)]) (fun t => (peek 0x01FF#16 t, peek 0x01FE#16 t, t.sp, t.pc)) =
      some (0x00#8, 0x02#8, 0xFD#8, 0x0600#16) := by decide
/-- V-JS2: the pushed address carries into the high byte. -/
theorem test_jsr_high_byte :
    got { cfg [(0x12FE, 0x20#8), (0x1300, 0x80#8)] with pc := 0x12FE#16 }
        (fun t => (peek 0x01FF#16 t, peek 0x01FE#16 t, t.pc)) = some (0x13#8, 0x00#8, 0x8000#16) := by decide
/-- V-RS2: the added one wraps. -/
theorem test_rts_wraps :
    got { cfg [(0, 0x60#8), (0x1FE, 0xFF#8), (0x1FF, 0xFF#8)] with sp := 0xFD#8 } (fun t => (t.pc, t.sp)) =
      some (0x0000#16, 0xFF#8) := by decide
/-- V-RS3. -/
theorem test_rts_stack_wraps :
    got { cfg [(0, 0x60#8), (0x100, 0x12#8), (0x1FF, 0x34#8)] with sp := 0xFE#8 } (fun t => (t.pc, t.sp)) =
      some (0x1235#16, 0x00#8) := by decide

/-! ### Break, return, no-operation, unrecognized (section 2.7) -/

/-- V-BR1. -/
theorem test_brk :
    got { cfg [(0xFFFF, 0x90#8)] with pc := 0x0200#16 }
        (fun t => (peek 0x01FF#16 t, peek 0x01FE#16 t, peek 0x01FD#16 t, t.sp, t.p, t.pc)) =
      some (0x02#8, 0x02#8, 0x10#8, 0xFC#8, 0x04#8, 0x9000#16) := by decide
/-- V-BR6: the stack wraps, D stays set. -/
theorem test_brk_wraps :
    got { cfg [] with sp := 0x01#8, p := 0x08#8 }
        (fun t => (peek 0x0101#16 t, peek 0x0100#16 t, peek 0x01FF#16 t, t.sp, t.p)) =
      some (0x00#8, 0x02#8, 0x18#8, 0xFE#8, 0x0C#8) := by decide
/-- V-RI2. -/
theorem test_rti :
    got { cfg [(0, 0x40#8), (0x100, 0x12#8), (0x1FE, 0xC3#8), (0x1FF, 0x34#8)] with sp := 0xFD#8 }
        (fun t => (t.p, t.pc, t.sp)) = some (0xC3#8, 0x1234#16, 0x00#8) := by decide
/-- V-NP1: nothing changes but PC. -/
theorem test_nop :
    nextOf (step { cfg [(0x10, 0xEA#8)] with pc := 0x0010#16 }) =
      some { cfg [(0x10, 0xEA#8)] with pc := 0x0011#16 } := by decide
/-- V-UK2. -/
theorem test_unknown_wraps :
    got { cfg [(0xFFFF, 0x02#8)] with pc := 0xFFFF#16 } (fun t => (t.pc, t.trace)) =
      some (0x0000#16, [⟨0x02#8, 0xFFFF#16⟩]) := by decide

/-! ### Bus, host, budget, reset -/

/-- 20_memory.md R41, R47: the end of a range is outside it, and an overlap goes to the first mapping. -/
theorem test_dispatch_edges :
    busMatch [⟨0x1000#16, 0x10, 0⟩, ⟨0x1008#16, 0x10, 1⟩] 0x0FFF#16 = none ∧
    busMatch [⟨0x1000#16, 0x10, 0⟩, ⟨0x1008#16, 0x10, 1⟩] 0x100F#16 = some ⟨0x1000#16, 0x10, 0⟩ ∧
    busMatch [⟨0x1000#16, 0x10, 0⟩, ⟨0x1008#16, 0x10, 1⟩] 0x1010#16 = some ⟨0x1008#16, 0x10, 1⟩ ∧
    busMatch [⟨0x1000#16, 0x10, 0⟩, ⟨0x1008#16, 0x10, 1⟩] 0x1018#16 = none := by decide
/-- 40_execution_cycle.md R89: BRK costs 6, NOP 1, a removed or unrecognized opcode 1; NOP costs 1 under every parameter. -/
theorem test_cost :
    (Cost.standard .all).of 0x00#8 = 6 ∧ (Cost.standard .all).of 0xEA#8 = 1 ∧ (Cost.standard .all).of 0xFF#8 = 1 ∧
    (Cost.standard ⟨false, true⟩).of 0x86#8 = 1 ∧ (Cost.standard .all).of 0x86#8 = 3 ∧
    Cost.of [(0xEA#8, 4), (0xAA#8, 4)] 0xEA#8 = 1 ∧ Cost.of [(0xEA#8, 4), (0xAA#8, 4)] 0xAA#8 = 5 := by decide
/-- Program 1 of section 3, with `execute(4)`: two steps, the budget left at -2. -/
theorem test_execute_floor :
    (executeLeft 4 (cfg [(0, 0xA9#8), (1, 0x41#8), (2, 0x8D#8), (4, 0x02#8)])).1 = -2 ∧
    (execute 4 (cfg [(0, 0xA9#8), (1, 0x41#8), (2, 0x8D#8), (4, 0x02#8)])).pc = 0x0005#16 := by decide
/-- 20_memory.md R61 (D21): `load_program` wraps at the top. -/
theorem test_load_program_wraps :
    (loadProgram [0x11#8, 0x22#8] 0xFFFF#16 (cfg [])).devs = [.ram 65535 [(0, 0x22#8), (0xFFFF, 0x11#8)]] := by decide
/-- 10_state.md R37: `Given(v)` is the reset PC. -/
theorem test_reset_given : (State.resetWith { Config.standard with resetPc := .given 0x0600#16 }).pc = 0x0600#16 := by
  decide
/-- A table row placed where the reset state fetches is what the next step runs. -/
theorem test_with_fetch_word :
    got (State.reset.withFetchWord 16 0x41A9) (fun t => (t.a, t.pc)) = some (0x41#8, 0x0002#16) ∧
    got (State.reset.withFetchWord 24 0x06004C) (fun t => t.pc) = some 0x0600#16 := by decide

/-! ### Witnesses: for each statement with hypotheses, and each of its clauses, a concrete state and operands that meet them -/

/-- Two RAMs of 16 bytes at 0x1000 and overlapping it at 0x1008, a ROM at 0x2000, and the first RAM again at 0x3000; all
else unmapped, under the Fault policy. -/
def twoRams : State :=
  { State.reset with
    map := [⟨0x1000#16, 0x10, 0⟩, ⟨0x1008#16, 0x10, 1⟩, ⟨0x2000#16, 0x10, 2⟩, ⟨0x3000#16, 0x10, 0⟩]
    devs := [.ram 15 [], .ram 15 [], .rom 15 [(0, 0x77#8)]]
    config := { Config.standard with unmappedWrite := .fault } }

/-- The stack page mapped from 0x0100 to the given address of it alone, under the Fault policy. -/
def stackUpTo (size : Nat) (sp : Byte) : State :=
  { State.reset with
    map := [⟨0x0100#16, size, 0⟩], devs := [.ram 0xFF []], sp := sp
    config := { Config.standard with unmappedWrite := .fault } }

/-- CFG after a raise: the fault mark is set. -/
def marked : State :=
  { cfg [] with fault := some ⟨0x4000#16, 0x5A#8⟩, config := { Config.standard with unmappedWrite := .fault } }

theorem witness_BusDispatchTakesFirstMatch :
    (⟨0xFFF0#16, 0x10, 0⟩ : Mapping) ∈ [(⟨0xFFF0#16, 0x10, 0⟩ : Mapping)] ∧
    (0xFFF0#16).toNat ≤ (0xFFFF#16).toNat ∧ (0xFFFF#16).toNat < (0xFFF0#16).toNat + 0x10 := by decide

theorem witness_BusReadFollowsDispatch :
    busMatch twoRams.map 0x100F#16 = some ⟨0x1000#16, 0x10, 0⟩ ∧
    busMatch twoRams.map 0x1010#16 = some ⟨0x1008#16, 0x10, 1⟩ ∧
    busMatch twoRams.map 0x0FFF#16 = none := by decide

theorem witness_BusWriteReachesFirstMatchOnly :
    busMatch twoRams.map 0x1008#16 = some ⟨0x1000#16, 0x10, 0⟩ ∧ 1 ≠ (0 : Nat) := by decide

theorem witness_UnmappedWriteFollowsPolicy :
    (busMatch State.reset.map 0xFFFF#16 = none ∧ State.reset.config.unmappedWrite = .drop) ∧
    (busMatch twoRams.map 0x1018#16 = none ∧ twoRams.config.unmappedWrite = .fault) := by decide

theorem witness_EachAccessReachesOneDevice :
    (busMatch twoRams.map 0x100F#16 = some ⟨0x1000#16, 0x10, 0⟩ ∧ (1 : Nat) ≠ 0) ∧
    busMatch twoRams.map 0x0FFF#16 = none := by decide

theorem witness_SharedDeviceHasOneState :
    busMatch twoRams.map 0x100F#16 = some ⟨0x1000#16, 0x10, 0⟩ ∧
    busMatch twoRams.map 0x300F#16 = some ⟨0x3000#16, 0x10, 0⟩ ∧
    0 < twoRams.devs.length ∧ twoRams.device 0 = .ram 15 [] ∧
    ((0x100F#16).toNat - (0x1000#16).toNat) % (15 + 1) = ((0x300F#16).toNat - (0x3000#16).toNat) % (15 + 1) := by
  decide

theorem witness_RamReadGivesLastWrite :
    isRam twoRams 0x1000#16 = true ∧ sameSite twoRams 0x1000#16 0x3000#16 = true := by decide

theorem witness_WriteLeavesOtherBytes :
    sameSite twoRams 0x100F#16 0x1010#16 = false ∧ sameSite twoRams 0x1000#16 0x0FFF#16 = false := by decide

theorem witness_PlainReadsAndRomWritesChangeNothing :
    isPeripheral twoRams 0x1000#16 = false ∧ isPeripheral twoRams 0x0FFF#16 = false ∧
    isRom twoRams 0x200F#16 = true := by decide

theorem witness_LoadProgramIsNotAtomic :
    State.reset.config.unmappedWrite = .drop ∧
    twoRams.config.unmappedWrite = .fault ∧
    (∀ k, k < [0x01#8].length → (busMatch twoRams.map (0x1017#16 + BitVec.ofNat 16 k)).isSome) ∧
    busMatch twoRams.map (0x1017#16 + BitVec.ofNat 16 [0x01#8].length) = none := by decide

theorem witness_LoadProgramFillsRam :
    (cfg []).map = [⟨0x0000#16, 65536, 0⟩] ∧ (cfg []).device 0 = .ram 65535 [] ∧
    [0x11#8, 0x22#8].length ≤ 65536 ∧ 1 < [0x11#8, 0x22#8].length ∧
    (∀ k, k < [0x11#8, 0x22#8].length → 0x8000#16 ≠ 0xFFFF#16 + BitVec.ofNat 16 k) := by decide

theorem witness_HostOperationsDoNotTouchRegisters : ∀ b, HostCall.write 0x1000#16 0x01#8 ≠ .execute b := by
  intro b; simp

theorem witness_MapIsFixedOnceExecuting :
    admissible [.execute 4, .write 0x1000#16 0x01#8, .execute 1] = true ∧
    admissible [.execute 4, .attach 0x0000#16 1 (.attached 0)] = false ∧ 2 < twoRams.devs.length ∧
    ∀ base size r, HostCall.loadProgram [0x01#8] 0xFFFF#16 ≠ .attach base size r := by
  refine ⟨by decide, by decide, by decide, ?_⟩
  intro _ _ _; simp

theorem witness_DecodeOfEncodeIsIdentity :
    Instr.wf ⟨false, true⟩ (.stxAbs 0xFFFF#16) = true ∧ Instr.wf ⟨false, false⟩ .brk = true := by decide

theorem witness_DecodedBytesAreTheEncoding :
    decode .all [0x8E#8, 0xFF#8, 0xFF#8, 0x00#8] = .instr (.stxAbs 0xFFFF#16) [0x00#8] := by rfl

theorem witness_OperandsAreAssembledUnchanged :
    formOf .all 0xA9#8 = some (.f2 .ldaImm) ∧ formOf .all 0x6C#8 = some (.f3 .jmpInd) := ⟨by rfl, by rfl⟩

theorem witness_FetchReadsAtPcAndAdvances : ({ cfg [] with pc := 0xFFFF#16 } : State).pc = 0xFFFF#16 := by decide

theorem witness_PushAndPullFollowTheStackPointer :
    (storeOk (stackUpTo 0x100 0xFF#8) (0x0100#16 + zext16 (stackUpTo 0x100 0xFF#8).sp) = true) ∧
    ((stackUpTo 0x100 0x00#8).sp = 0x00#8 ∧ storeOk (stackUpTo 0x100 0x00#8) 0x0100#16 = true) ∧
    (stackUpTo 0x100 0xFF#8).sp = 0xFF#8 := by decide

theorem witness_IndirectTargetWrapsInThePointersPage :
    (0xFFFF#16).toNat % 256 = 0xFF ∧ (0x12FE#16).toNat % 256 ≠ 0xFF := by decide

theorem witness_UnrecognizedOpcodeOnlyAddsAnEvent :
    State.reset.fault = none ∧
    (formOf State.reset.config.xyStoreModes (peek State.reset.pc State.reset)).isNone = true := by decide

theorem witness_StepRunsTheFetchedInstruction :
    (cfg [(0, 0x20#8), (2, 0x06#8)]).fault = none ∧
    Instr.wf (cfg [(0, 0x20#8), (2, 0x06#8)]).config.xyStoreModes (.jsr 0x0600#16) = true ∧
    (fetchBytes (encode (.jsr 0x0600#16)).length (cfg [(0, 0x20#8), (2, 0x06#8)])).1 = encode (.jsr 0x0600#16) := by
  decide

theorem witness_StepRunsTheInstructionInPlainMemory :
    ∃ s : State, s.pc = 0xFFFE#16 ∧ s.fault = none ∧ Instr.wf s.config.xyStoreModes (.jsr 0x0600#16) = true ∧
      ∀ (k : Nat) (h : k < (encode (.jsr 0x0600#16)).length),
        isPeripheral s (s.pc + BitVec.ofNat 16 k) = false ∧
        peek (s.pc + BitVec.ofNat 16 k) s = (encode (.jsr 0x0600#16))[k] :=
  ⟨{ cfg [(0, 0x06#8), (0xFFFE, 0x20#8)] with pc := 0xFFFE#16 }, by decide⟩

theorem witness_NoInstructionStopsTheCpu : State.reset.fault = none := by decide

theorem witness_MarkedStateTakesNoStep : marked.fault = some ⟨0x4000#16, 0x5A#8⟩ ∧ marked.inv = true := by decide

/-- Both ends: a step that raises (PHA at an unmapped stack byte; its opcode stands at 0x0100) and one that does not. -/
def raising (sp : Byte) : State :=
  { stackUpTo 1 sp with devs := [.ram 0xFF [(0, 0x48#8)]], pc := 0x0100#16 }

theorem witness_FaultMarkNamesAnUnmappedWrite :
    (raising 0x01#8).fault = none ∧ (∃ t, step (raising 0x01#8) = .next t ∧ t.fault = some ⟨0x0101#16, 0x00#8⟩) ∧
    (∃ t, step (raising 0x00#8) = .next t ∧ t.fault = none) :=
  ⟨by decide, ⟨_, rfl, by decide⟩, ⟨_, rfl, by decide⟩⟩

theorem witness_ExecuteFollowsTheBudgetLoop :
    ((0 : Int) ≤ 0 ∧ (0 : Int) < 1) ∧ State.reset.fault = none ∧ marked.fault ≠ none := by decide

theorem witness_BudgetIsAFloor :
    (0 : Int) < 4 ∧ (cfg [(0, 0xA9#8), (2, 0x8D#8)]).fault = none ∧
    (executeLeft 4 (cfg [(0, 0xA9#8), (2, 0x8D#8)])).2.fault = none ∧
    (executeLeft 4 (cfg [(0, 0xA9#8), (2, 0x8D#8)])).1 = -2 := by decide

theorem witness_ExecuteOneIsOneStep : (cfg [(0, 0xEA#8)]).fault = none := by decide

/-- Absolute at 0xFFFF, zero-page at 0x00FF, a push at 0x0100. -/
theorem witness_StoreIsSeenByTheNextFetch :
    isRam { cfg [] with pc := 0xFFFF#16 } 0xFFFF#16 = true ∧
    (isRam { cfg [] with pc := 0x00FF#16 } 0x00FF#16 = true ∧ zeroPageAddr 0xFF#8 = 0x00FF#16) ∧
    (isRam { cfg [] with pc := 0x0100#16, sp := 0x00#8 } 0x0100#16 = true ∧ stackAddr 0x00#8 = 0x0100#16) := by decide

/-- JSR to its own low byte's address (0x01FF, after a wrap) and to its high byte's (0x0100). -/
theorem witness_StoreIsSeenByTheNextFetch_jsr :
    (storeOk { cfg [] with sp := 0x00#8 } (stackAddr 0x00#8) = true ∧
      storeOk { cfg [] with sp := 0x00#8 } (stackAddr (0x00#8 - 1)) = true) ∧
    (isRam { cfg [] with sp := 0x00#8 } 0x01FF#16 = true ∧ 0x01FF#16 = stackAddr (0x00#8 - 1)) ∧
    (isRam { cfg [] with sp := 0x00#8 } 0x0100#16 = true ∧ 0x0100#16 = stackAddr 0x00#8 ∧
      sameSite { cfg [] with sp := 0x00#8 } (stackAddr (0x00#8 - 1)) 0x0100#16 = false) := by decide

/-- CFG with the Break vector pointing at a byte of the stack page that BRK pushes to. -/
def breakInto (lo : Byte) : State := cfg [(0xFFFE, lo), (0xFFFF, 0x01#8)]

theorem witness_StoreIsSeenByTheNextFetch_brk :
    (0x0001#16 = (breakInto 0xFD#8).pc + BitVec.ofNat 16 (breakInto 0xFD#8).config.brkPcSkip.val ∧
      storeOk (breakInto 0xFD#8) 0x01FF#16 = true ∧ storeOk (breakInto 0xFD#8) 0x01FE#16 = true ∧
      storeOk (breakInto 0xFD#8) 0x01FD#16 = true) ∧
    (nextOf (exec .brk (breakInto 0xFD#8))).map (fun t => (t.pc, isRam (breakInto 0xFD#8) t.pc)) =
      some (stackAddr ((breakInto 0xFD#8).sp - 2), true) ∧
    (nextOf (exec .brk (breakInto 0xFE#8))).map (fun t => (t.pc, isRam (breakInto 0xFE#8) t.pc,
        sameSite (breakInto 0xFE#8) 0x01FD#16 t.pc)) =
      some (stackAddr ((breakInto 0xFE#8).sp - 1), true, false) ∧
    (nextOf (exec .brk (breakInto 0xFF#8))).map (fun t => (t.pc, isRam (breakInto 0xFF#8) t.pc,
        sameSite (breakInto 0xFF#8) 0x01FE#16 t.pc, sameSite (breakInto 0xFF#8) 0x01FD#16 t.pc)) =
      some (stackAddr (breakInto 0xFF#8).sp, true, false, false) := by decide

theorem witness_ZeroPageStoreResults :
    storeOk (cfg []) (zext16 0xFF#8) = true ∧ storeOk State.reset (zext16 0x00#8) = true ∧
    storeOk twoRams (zext16 0xFF#8) = false := by decide

theorem witness_AbsoluteStoreResults :
    storeOk twoRams 0x100F#16 = true ∧ storeOk twoRams 0x1018#16 = false := by decide

theorem witness_PushResults :
    storeOk (stackUpTo 0x100 0xFF#8) (stackAddr (stackUpTo 0x100 0xFF#8).sp) = true ∧
    storeOk (stackUpTo 0xFF 0xFF#8) (stackAddr (stackUpTo 0xFF 0xFF#8).sp) = false := by decide

/-- The second push wraps to 0x01FF, mapped in the first state only; the third state has no stack at SP. -/
theorem witness_JsrResults :
    (storeOk (stackUpTo 0x100 0x00#8) (stackAddr (stackUpTo 0x100 0x00#8).sp) = true ∧
      storeOk (stackUpTo 0x100 0x00#8) (stackAddr ((stackUpTo 0x100 0x00#8).sp - 1)) = true) ∧
    storeOk (stackUpTo 0xFF 0xFF#8) (stackAddr (stackUpTo 0xFF 0xFF#8).sp) = false ∧
    (storeOk (stackUpTo 0xFF 0x00#8) (stackAddr (stackUpTo 0xFF 0x00#8).sp) = true ∧
      storeOk (stackUpTo 0xFF 0x00#8) (stackAddr ((stackUpTo 0xFF 0x00#8).sp - 1)) = false) := by decide

theorem witness_BrkResults :
    storeOk (stackUpTo 0x100 0x01#8) (stackAddr (stackUpTo 0x100 0x01#8).sp) = true ∧
    storeOk (stackUpTo 0x100 0x01#8) (stackAddr ((stackUpTo 0x100 0x01#8).sp - 1)) = true ∧
    storeOk (stackUpTo 0x100 0x01#8) (stackAddr ((stackUpTo 0x100 0x01#8).sp - 2)) = true := by decide

theorem witness_BrkStopsAtARaisingPush :
    (0x0001#16).toNat = ((stackUpTo 0xFF 0xFF#8).pc.toNat + (stackUpTo 0xFF 0xFF#8).config.brkPcSkip.val) % 65536 ∧
    storeOk (stackUpTo 0xFF 0xFF#8) (stackAddr (stackUpTo 0xFF 0xFF#8).sp) = false ∧
    (storeOk (stackUpTo 0xFF 0x00#8) (stackAddr (stackUpTo 0xFF 0x00#8).sp) = true ∧
      storeOk (stackUpTo 0xFF 0x00#8) (stackAddr ((stackUpTo 0xFF 0x00#8).sp - 1)) = false) ∧
    (storeOk (stackUpTo 0xFF 0x01#8) (stackAddr (stackUpTo 0xFF 0x01#8).sp) = true ∧
      storeOk (stackUpTo 0xFF 0x01#8) (stackAddr ((stackUpTo 0xFF 0x01#8).sp - 1)) = true ∧
      storeOk (stackUpTo 0xFF 0x01#8) (stackAddr ((stackUpTo 0xFF 0x01#8).sp - 2)) = false) := by decide

theorem witness_EveryInstructionLeavesOtherBytes :
    ∃ t, exec (.jsr 0x0600#16) (cfg []) = .next t ∧
      (∀ a ∈ writeAddrs (.jsr 0x0600#16) (cfg []), sameSite (cfg []) a 0x01FD#16 = false) ∧
      (∀ a ∈ readAddrs (.jsr 0x0600#16) (cfg []), isPeripheral (cfg []) a = true →
        sameSite (cfg []) a 0x01FD#16 = false) :=
  have ⟨t, h, _⟩ := exec_keeps (.jsr 0x0600#16) (cfg [])
  ⟨t, h, by
      intro a ha
      simp only [writeAddrs, List.mem_cons, List.not_mem_nil, or_false] at ha
      rcases ha with rfl | rfl <;> decide,
    by simp [readAddrs]⟩

/-- A flag does change: Z by TAX from A = 0x00, D by PLP, I by BRK. -/
theorem witness_FlagsChangeOnlyByTheirWriters :
    (∃ t, exec .tax (cfg []) = .next t ∧ getFlag t.p .zero ≠ getFlag (cfg []).p .zero) ∧
    (∃ t, exec .plp (cfg [(0x100, 0x08#8)]) = .next t ∧
      getFlag t.p .decimalMode ≠ getFlag (cfg [(0x100, 0x08#8)]).p .decimalMode) ∧
    (∃ t, exec .brk (cfg []) = .next t ∧ getFlag t.p .interruptDisable ≠ getFlag (cfg []).p .interruptDisable) :=
  ⟨⟨_, rfl, by decide⟩, ⟨_, rfl, by decide⟩, ⟨_, rfl, by decide⟩⟩

theorem witness_RegistersChangeOnlyByTheirWriters :
    (∃ t, exec (.ldaImm 0x41#8) (cfg []) = .next t ∧ t.a ≠ (cfg []).a) ∧
    (∃ t, exec .tsx (cfg []) = .next t ∧ t.x ≠ (cfg []).x) ∧
    (∃ t, exec (.ldyImm 0x41#8) (cfg []) = .next t ∧ t.y ≠ (cfg []).y) ∧
    (∃ t, exec .txs (cfg []) = .next t ∧ t.sp ≠ (cfg []).sp) :=
  ⟨⟨_, rfl, by decide⟩, ⟨_, rfl, by decide⟩, ⟨_, rfl, by decide⟩, ⟨_, rfl, by decide⟩⟩

theorem witness_FlagsDoNotInfluenceExecution :
    (∃ t, step (cfg [(0, 0x28#8)]) = .next t ∧ (fetchInstr (cfg [(0, 0x28#8)])).1 ≠ .instr .php ∧
      (fetchInstr (cfg [(0, 0x28#8)])).1 ≠ .instr .brk) ∧
    (∃ t, exec .php (cfg []) = .next t) ∧
    (∃ t, exec .brk (cfg []) = .next t ∧ sameSite (cfg []) (stackAddr ((cfg []).sp - 2)) 0xFFFE#16 = false ∧
      sameSite (cfg []) (stackAddr ((cfg []).sp - 2)) 0xFFFF#16 = false) :=
  ⟨⟨_, rfl, by decide, by decide⟩, ⟨_, rfl⟩, ⟨_, rfl, by decide, by decide⟩⟩

/-- The clauses of the agreement: a byte away from the pushed status, and a device that it does not reach. -/
theorem witness_AgreeButStatusAt :
    sameSite twoRams 0x1000#16 0x1001#16 = false ∧ busMatch twoRams.map 0x1000#16 = some ⟨0x1000#16, 0x10, 0⟩ ∧
    1 ≠ (0 : Nat) := by decide

theorem witness_StepKeepsMapAndParameters : ∃ t, step (raising 0x01#8) = .next t := ⟨_, rfl⟩

theorem witness_TraceGrowsOnlyByUnrecognizedOpcodes :
    (∃ t, step State.reset = .next t ∧
      (formOf State.reset.config.xyStoreModes (peek State.reset.pc State.reset)).isNone = true) ∧
    (∃ t, step (cfg []) = .next t ∧
      (formOf (cfg []).config.xyStoreModes (peek (cfg []).pc (cfg []))).isNone = false) :=
  ⟨⟨_, rfl, by decide⟩, ⟨_, rfl, by decide⟩⟩

theorem witness_PullUndoesPush : isRam (stackUpTo 0x100 0x00#8) (stackAddr (stackUpTo 0x100 0x00#8).sp) = true := by
  decide

theorem witness_RepeatedPushesWrap : ∀ sp, storeOk State.reset (stackAddr sp) = true := by
  intro sp
  have h : State.reset.config.unmappedWrite = .drop := by decide
  simp [storeOk, h]

/-- JSR $0600 at 0x0000, RTS at 0x0600: the RTS is the very next step. -/
def callAndReturn : State := cfg [(0, 0x20#8), (2, 0x06#8), (0x600, 0x60#8)]

theorem witness_ReturnUndoesCall :
    callAndReturn.fault = none ∧ (fetchBytes 3 callAndReturn).1 = encode (.jsr 0x0600#16) ∧
    isRam callAndReturn (stackAddr callAndReturn.sp) = true ∧
    isRam callAndReturn (stackAddr (callAndReturn.sp - 1)) = true ∧
    sameSite callAndReturn (stackAddr callAndReturn.sp) (stackAddr (callAndReturn.sp - 1)) = false ∧
    ∃ t, step callAndReturn = .next t ∧ t.fault = none ∧ (fetchBytes 1 t).1 = encode .rts ∧
      isRam t (stackAddr (t.sp + 1)) = true ∧ isRam t (stackAddr (t.sp + 2)) = true :=
  ⟨by decide, by decide, by decide, by decide, by decide, _, rfl, by decide, by decide, by decide, by decide⟩

/-- V-BR3: BRK at 0x0000, the vector 0x0300, RTI there: the RTI is the very next step. -/
def breakAndReturn : State := cfg [(0x300, 0x40#8), (0xFFFF, 0x03#8)]

theorem witness_ReturnFromInterruptUndoesBreak :
    breakAndReturn.fault = none ∧ (fetchBytes 1 breakAndReturn).1 = encode .brk ∧
    isRam breakAndReturn (stackAddr breakAndReturn.sp) = true ∧
    isRam breakAndReturn (stackAddr (breakAndReturn.sp - 1)) = true ∧
    isRam breakAndReturn (stackAddr (breakAndReturn.sp - 2)) = true ∧
    sameSite breakAndReturn (stackAddr breakAndReturn.sp) (stackAddr (breakAndReturn.sp - 1)) = false ∧
    sameSite breakAndReturn (stackAddr breakAndReturn.sp) (stackAddr (breakAndReturn.sp - 2)) = false ∧
    sameSite breakAndReturn (stackAddr (breakAndReturn.sp - 1)) (stackAddr (breakAndReturn.sp - 2)) = false ∧
    ∃ t, step breakAndReturn = .next t ∧ t.fault = none ∧ (fetchBytes 1 t).1 = encode .rti ∧
      isRam t (stackAddr (t.sp + 1)) = true ∧ isRam t (stackAddr (t.sp + 2)) = true ∧
      isRam t (stackAddr (t.sp + 3)) = true :=
  ⟨by decide, by decide, by decide, by decide, by decide, by decide, by decide, by decide, _, rfl, by decide, by decide,
    by decide, by decide, by decide⟩

theorem witness_UnmappedSpaceIsWalkedByteByByte : State.reset.map = [] ∧ State.reset.fault = none := by decide

theorem witness_StepKeepsTheInvariant :
    (cfg [(0, 0x48#8)]).inv = true ∧ ∃ t, step (cfg [(0, 0x48#8)]) = .next t := ⟨by decide, _, rfl⟩

theorem witness_HostCallsKeepTheInvariant :
    twoRams.inv = true ∧
    (∀ base size r, HostCall.attach 0xFFFF#16 65536 (.attached 2) = .attach base size r →
      size ≤ 65536 ∧ (∀ d, r = .fresh d → d.wf = true) ∧ (∀ id, r = .attached id → id < twoRams.devs.length)) ∧
    (∀ base size r, HostCall.attach 0xFFFF#16 0 (.fresh (.ram 15 [(15, 0x01#8)])) = .attach base size r →
      size ≤ 65536 ∧ (∀ d, r = .fresh d → d.wf = true) ∧ (∀ id, r = .attached id → id < twoRams.devs.length)) := by
  refine ⟨by decide, ?_, ?_⟩ <;> rintro _ _ _ ⟨⟩ <;> refine ⟨by decide, ?_, ?_⟩ <;> rintro _ ⟨⟩ <;> decide

theorem witness_ResetValuesAndInvariant : Config.standard.spReset ≠ 0x00#8 := by decide

end Sys2Proof.Tests
end

