-- ==== Sys2Proof/Proofs/HostMemory.lean ====
section
/-! PROOFS. 20_memory.md: a bus access reaches the first matching device and no other, and the host's operations neither
change nor see a register. -/

namespace Sys2Proof.Machine

/-! ### A bus access asks the device of the first match -/

theorem memRead_of_match {s : State} {a : Addr} {m : Mapping} (h : busMatch s.map a = some m) :
    memRead a s =
      (((s.device m.dev).read (m.offset a)).1, s.setDevice m.dev ((s.device m.dev).read (m.offset a)).2) := by
  simp [memRead, h]

theorem memRead_of_unmapped {s : State} {a : Addr} (h : busMatch s.map a = none) : memRead a s = (0xFF#8, s) := by
  simp [memRead, h]

theorem memWrite_of_match {s : State} {a : Addr} {m : Mapping} (v : Byte) (h : busMatch s.map a = some m) :
    memWrite a v s = .done (s.setDevice m.dev ((s.device m.dev).write (m.offset a) v)) := by
  simp [memWrite, h]

/-- Settles O2: `memRead` in its two cases, a match and none. -/
theorem busReadFollowsDispatch : Obligations.BusReadFollowsDispatch :=
  fun _ _ => ⟨fun _ h => memRead_of_match h, memRead_of_unmapped⟩

/-- Settles O3: the write puts one device back, and putting a device back leaves the others. -/
theorem busWriteReachesFirstMatchOnly : Obligations.BusWriteReachesFirstMatchOnly :=
  fun s _ v m h => ⟨_, memWrite_of_match v h, rfl, fun other => device_setDevice_other s m.dev other _⟩

/-! ### The same state with other registers

Each host operation but `execute` commutes with replacing the registers. That says both halves of R60 at once: the
operation keeps whatever the registers are, and does the same to everything else whatever they are. -/

/-- `s` with the registers of `r`. -/
def State.withRegistersOf (s r : State) : State :=
  { s with a := r.a, x := r.x, y := r.y, sp := r.sp, p := r.p, pc := r.pc }

/-- An effect that ends in the same way, with the registers of `r`. -/
def Effect.withRegistersOf (e : Effect) (r : State) : Effect :=
  match e with
  | .done s => .done (s.withRegistersOf r)
  | .raised s => .raised (s.withRegistersOf r)

section
variable (r s : State)

@[simp] theorem Effect.withRegistersOf_state (e : Effect) :
    (e.withRegistersOf r).state = e.state.withRegistersOf r := by cases e <;> rfl

/-- A continuation that commutes with replacing the registers may be run before or after the replacement. -/
theorem Effect.andThen_withRegistersOf (e : Effect) {k : State → Effect}
    (hk : ∀ t, k (t.withRegistersOf r) = (k t).withRegistersOf r) :
    (e.withRegistersOf r).andThen k = (e.andThen k).withRegistersOf r := by
  cases e with
  | done t => exact hk t
  | raised t => rfl

theorem memRead_withRegistersOf (b : Addr) :
    memRead b (s.withRegistersOf r) = ((memRead b s).1, (memRead b s).2.withRegistersOf r) := by
  obtain ⟨devs, h, _⟩ := memRead_after b s
  rw [memRead_congr b s (s.withRegistersOf r) rfl rfl, h]
  rfl

theorem stored_withRegistersOf (b : Addr) (v : Byte) :
    stored b v (s.withRegistersOf r) = (stored b v s).withRegistersOf r := by
  obtain ⟨devs, h, _⟩ := stored_after b v s
  rw [stored_congr b v s (s.withRegistersOf r) rfl rfl, h]
  rfl

theorem memWrite_withRegistersOf (b : Addr) (v : Byte) :
    memWrite b v (s.withRegistersOf r) = (memWrite b v s).withRegistersOf r := by
  have hc : storeOk (s.withRegistersOf r) b = storeOk s b := storeOk_congr b rfl rfl
  cases h : storeOk s b with
  | true => rw [memWrite_of_storeOk v h, memWrite_of_storeOk v (hc.trans h), stored_withRegistersOf]; rfl
  | false => rw [memWrite_of_not_storeOk v h, memWrite_of_not_storeOk v (hc.trans h)]; rfl

theorem loadBytes_withRegistersOf (bytes : List Byte) (start : Addr) :
    loadBytes start bytes (s.withRegistersOf r) = (loadBytes start bytes s).withRegistersOf r := by
  induction bytes generalizing start s with
  | nil => rfl
  | cons v vs ih =>
    simp only [loadBytes, memWrite_withRegistersOf]
    exact Effect.andThen_withRegistersOf r _ fun t => ih t (start + 1)

theorem attach_withRegistersOf (base : Addr) (size : Nat) (dev : DeviceRef) :
    attach base size dev (s.withRegistersOf r) = (attach base size dev s).withRegistersOf r := by
  cases dev <;> rfl

theorem hostCall_withRegistersOf (c : HostCall) (hc : ∀ b, c ≠ .execute b) :
    hostCall c (s.withRegistersOf r) = ((hostCall c s).1, (hostCall c s).2.withRegistersOf r) := by
  cases c with
  | attach base size dev => simp only [hostCall, attach_withRegistersOf]
  | read b => simp only [hostCall, cpuRead, memRead_withRegistersOf]
  | write b v => simp only [hostCall, cpuWrite, memWrite_withRegistersOf, Effect.withRegistersOf_state]
  | loadProgram bytes start =>
    simp only [hostCall, loadProgram, loadBytes_withRegistersOf, Effect.withRegistersOf_state]
  | execute b => exact absurd rfl (hc b)

end

/-- Settles O12: the host's read and write are the Bus's by definition, and every call but `execute` commutes with
replacing the registers. -/
theorem hostOperationsDoNotTouchRegisters : Obligations.HostOperationsDoNotTouchRegisters :=
  ⟨fun _ _ _ => ⟨rfl, rfl⟩, fun s c a x y sp p pc hc =>
    hostCall_withRegistersOf { s with a := a, x := x, y := y, sp := sp, p := p, pc := pc } s c hc⟩

end Sys2Proof.Machine
end

