-- ==== Sys2Proof/Proofs/Encoding.lean ====
section
/-! PROOFS. 30_encoding.md: the decoder hands a row its operand as the bytes give it. -/

namespace Sys2Proof.Machine

/-! ### The decoder on the two formats with an operand (R71) -/

theorem decode_f2 {m : StoreModes} {op : Byte} {mk : Byte → Instr} (b1 : Byte) (rest : List Byte)
    (h : formOf m op = some (.f2 mk)) : decode m (op :: b1 :: rest) = .instr (mk b1) rest := by
  simp only [decode, h]

theorem decode_f3 {m : StoreModes} {op : Byte} {mk : Addr → Instr} (lo hi : Byte) (rest : List Byte)
    (h : formOf m op = some (.f3 mk)) :
    decode m (op :: lo :: hi :: rest) = .instr (mk (joinBytes hi lo)) rest := by
  simp only [decode, h]

/-! ### A zero-page address -/

theorem toNat_zeroPageAddr (zp : Byte) : (zeroPageAddr zp).toNat = zp.toNat :=
  BitVec.toNat_setWidth_of_le (by decide)

theorem zeroPageAddr_le (zp : Byte) : (zeroPageAddr zp).toNat ≤ 0x00FF := by
  have hlt : zp.toNat < 2 ^ 8 := zp.isLt
  rw [toNat_zeroPageAddr]
  omega

/-- Settles O18: the decoder on F2 and F3, where the word is the two bytes joined low first; a zero-page address has its
byte's value, and an absolute address is the operand by definition. -/
theorem operandsAreAssembledUnchanged : Obligations.OperandsAreAssembledUnchanged :=
  ⟨fun _ _ b1 _ rest h => decode_f2 b1 rest h,
    fun _ _ lo hi _ rest h => ⟨joinBytes hi lo, toNat_joinBytes hi lo, decode_f3 lo hi rest h⟩,
    fun zp => ⟨toNat_zeroPageAddr zp, zeroPageAddr_le zp⟩,
    fun _ => rfl⟩

end Sys2Proof.Machine
end

