-- ==== Sys2Proof/Proofs/ExecuteLoop.lean ====
section
/-! PROOFS. 40_execution_cycle.md R88 to R90: the budget loop without its fuel, and where its last step stands. -/

namespace Sys2Proof.Machine

/-! ### What the loop asks of a step -/

/-- The fetch's unit alone makes every COST positive (R89). -/
theorem one_le_cost (c : Cost) (op : Byte) : 1 ≤ c.of op := by
  rw [Cost.of_eq]
  exact Nat.le_add_right 1 _

theorem one_le_nextCost (s : State) : 1 ≤ nextCost s := one_le_cost _ _

/-- Without a fault mark a step always answers a next state: no instruction faults or is refused. -/
theorem exists_step_of_unmarked {s : State} (h : s.fault = none) : ∃ t, step s = .next t := by
  unfold step
  rw [h]
  rcases fetchInstr s with ⟨i | op, u⟩
  · obtain ⟨t, ht, _⟩ := exec_keeps i u
    exact ⟨t, ht⟩
  · exact ⟨_, rfl⟩

theorem stepMany_succ_of_step {s t : State} (n : Nat) (h : step s = .next t) :
    stepMany (n + 1) s = stepMany n t := by
  simp only [stepMany, h]

/-! ### The loop's two equations -/

theorem executeLoop_of_stop (fuel : Nat) {budget : Int} {s : State} (h : budget ≤ 0 ∨ s.fault ≠ none) :
    executeLoop fuel budget s = (budget, s) := by
  cases fuel with
  | zero => rfl
  | succ fuel =>
    have hc : ¬ (0 < budget ∧ s.fault = none) := fun ⟨hb, hf⟩ => h.elim (by omega) (· hf)
    simp only [executeLoop, if_neg hc]

theorem executeLoop_succ_of_step (fuel : Nat) {budget : Int} {s t : State} (hb : 0 < budget) (hs : s.fault = none)
    (h : step s = .next t) :
    executeLoop (fuel + 1) budget s = executeLoop fuel (budget - (nextCost s : Int)) t := by
  simp only [executeLoop, if_pos (And.intro hb hs), h]

/-- Any two amounts of fuel that have a unit for each budget unit give the same run, since every step takes at least one. -/
theorem executeLoop_fuel_congr {fuel fuel' : Nat} {budget : Int} (s : State) (h : budget.toNat ≤ fuel)
    (h' : budget.toNat ≤ fuel') : executeLoop fuel budget s = executeLoop fuel' budget s := by
  by_cases hstop : budget ≤ 0 ∨ s.fault ≠ none
  · rw [executeLoop_of_stop fuel hstop, executeLoop_of_stop fuel' hstop]
  · push Not at hstop
    obtain ⟨hb, hs⟩ := hstop
    obtain ⟨t, ht⟩ := exists_step_of_unmarked hs
    have hcost := one_le_nextCost s
    match fuel, fuel' with
    | 0, _ => omega
    | _, 0 => omega
    | fuel + 1, fuel' + 1 =>
      rw [executeLoop_succ_of_step fuel hb hs ht, executeLoop_succ_of_step fuel' hb hs ht]
      exact executeLoop_fuel_congr t (by omega) (by omega)

theorem executeLeft_of_stop {budget : Int} {s : State} (h : budget ≤ 0 ∨ s.fault ≠ none) :
    executeLeft budget s = (budget, s) :=
  executeLoop_of_stop _ h

theorem executeLeft_of_step {budget : Int} {s t : State} (hb : 0 < budget) (hs : s.fault = none)
    (h : step s = .next t) : executeLeft budget s = executeLeft (budget - (nextCost s : Int)) t := by
  have hcost := one_le_nextCost s
  obtain ⟨fuel, hfuel⟩ : ∃ fuel, budget.toNat = fuel + 1 := ⟨budget.toNat - 1, by omega⟩
  rw [executeLeft, hfuel, executeLoop_succ_of_step fuel hb hs h, executeLeft]
  exact executeLoop_fuel_congr t (by omega) le_rfl

/-- Settles O30: the loop's two equations, in which the fuel no longer shows. -/
theorem executeFollowsTheBudgetLoop : Obligations.ExecuteFollowsTheBudgetLoop := by
  refine ⟨fun budget s h => ?_, fun budget s hb hs => ?_, one_le_cost⟩
  · rw [execute, executeLeft_of_stop h]
  · obtain ⟨t, ht⟩ := exists_step_of_unmarked hs
    exact ⟨t, ht, congrArg Prod.snd (executeLeft_of_step hb hs ht)⟩

/-! ### The last step -/

/-- Settles O31, by induction on the budget: a first step that uses the budget up is the last one, and otherwise the last
step is that of the run from the state after it. -/
theorem budgetIsAFloor : Obligations.BudgetIsAFloor := by
  intro budget s hb hs hend
  induction hk : budget.toNat using Nat.strong_induction_on generalizing budget s with
  | _ k ih =>
    obtain ⟨t, ht⟩ := exists_step_of_unmarked hs
    have hcost := one_le_nextCost s
    have hstep := executeLeft_of_step hb hs ht
    by_cases hstop : budget - (nextCost s : Int) ≤ 0 ∨ t.fault ≠ none
    · rw [executeLeft_of_stop hstop] at hstep
      rw [hstep] at hend ⊢
      have hleft : budget - (nextCost s : Int) ≤ 0 := hstop.resolve_right (not_not_intro hend)
      refine ⟨0, budget, s, rfl, hstep.symm, hb, hs, ht, rfl, hleft, ?_⟩
      show -(budget - (nextCost s : Int)) ≤ (nextCost s : Int) - 1
      omega
    · push Not at hstop
      obtain ⟨hb', ht'⟩ := hstop
      rw [hstep] at hend ⊢
      obtain ⟨n, left, u, hn, hrest⟩ := ih _ (by omega) _ t hb' ht' hend rfl
      exact ⟨n + 1, left, u, (stepMany_succ_of_step n ht).trans hn, hrest⟩

end Sys2Proof.Machine
end

