-- ==== Sys2Proof/Proofs/CycleHelpers.lean ====
section
/-! PROOFS. 40_execution_cycle.md: the helpers of the cycle, which are Fetch8 and Fetch16 (R86, R92), SetZN (R93), Push and Pull
(R94, R95), and the indirect target with its page wrap (R103, R104). -/

namespace Sys2Proof.Machine

/-! ### Fetching -/

theorem form_length_bounds (f : Form) : 1 ≤ f.length ∧ f.length ≤ 3 := by
  cases f <;> simp [Form.length]

/-- A recognized opcode's fetch is as many Fetch8 as its row is long (R76). -/
theorem fetchInstr_state_of_form {s : State} {f : Form} (h : formOf s.config.xyStoreModes (peek s.pc s) = some f) :
    (fetchInstr s).2 = (fetchBytes f.length s).2 := by
  cases f with
  | f1 i => rw [fetchInstr_f1 h]; rfl
  | f2 mk => rw [fetchInstr_f2 h]; rfl
  | f3 mk => rw [fetchInstr_f3 h]; rfl

/-- An unrecognized opcode's fetch is one Fetch8 (R77). -/
theorem fetchInstr_state_of_unknown {s : State} (h : formOf s.config.xyStoreModes (peek s.pc s) = none) :
    (fetchInstr s).2 = (fetchBytes 1 s).2 := by
  rw [fetchInstr_unknown h]
  rfl

theorem fetchInstr_state_eq_fetchBytes (s : State) :
    ∃ n, 1 ≤ n ∧ n ≤ 3 ∧ (fetchInstr s).2 = (fetchBytes n s).2 := by
  cases h : formOf s.config.xyStoreModes (peek s.pc s) with
  | none => exact ⟨1, by omega, by omega, fetchInstr_state_of_unknown h⟩
  | some f =>
    obtain ⟨hmin, hmax⟩ := form_length_bounds f
    exact ⟨f.length, hmin, hmax, fetchInstr_state_of_form h⟩

theorem fetch8_pc_of_last {s : State} (h : s.pc = 0xFFFF#16) : (fetch8 s).2.pc = 0x0000#16 := by
  rw [fetch8_eq, h]
  rfl

/-- Settles O19: Fetch8 by its equation, Fetch16 as two Fetch8 joined low byte first, and a step's fetch by its row's length. -/
theorem fetchReadsAtPcAndAdvances : Obligations.FetchReadsAtPcAndAdvances :=
  ⟨fetch8_eq, fun _ => fetch8_pc_of_last, fun _ => ⟨_, _, rfl, toNat_joinBytes _ _, rfl⟩,
    fetchInstr_state_eq_fetchBytes⟩

/-! ### SetZN -/

/-- Settles O20: SetZN puts `withZN v` of P in P's place, and that is the status byte R93 asks for. -/
theorem setZNWritesOnlyZeroAndNegative : Obligations.SetZNWritesOnlyZeroAndNegative :=
  fun s v => ⟨withZN v s.p, rfl, withZN_zNFrom v s.p⟩

/-! ### The stack -/

theorem push_of_sp_zero {s : State} (v : Byte) (hsp : s.sp = 0x00#8) (h : storeOk s 0x0100#16 = true) :
    push v s = .done { stored 0x0100#16 v s with sp := 0xFF#8 } := by
  have haddr : stackAddr s.sp = 0x0100#16 := by rw [hsp]; rfl
  rw [← haddr] at h ⊢
  rw [push_of_storeOk v h, hsp]
  rfl

theorem pull_of_sp_last {s : State} (hsp : s.sp = 0xFF#8) :
    (pull s).1 = peek 0x0100#16 s ∧ (pull s).2.sp = 0x00#8 := by
  rw [pull_eq, hsp]
  exact ⟨rfl, rfl⟩

/-- Settles O21: `push` and `pull` by their equations, and those at the two ends of the stack page. -/
theorem pushAndPullFollowTheStackPointer : Obligations.PushAndPullFollowTheStackPointer := by
  refine ⟨fun s v h => push_of_storeOk v h, fun s => ?_, fun s v => push_of_sp_zero v, fun s => pull_of_sp_last⟩
  rw [pull_eq]
  exact ⟨rfl, rfl⟩

/-! ### The indirect target -/

theorem toNat_hiByte (a : Addr) : (hiByte a).toNat = a.toNat / 256 := by
  have hlt : a.toNat < 2 ^ 16 := a.isLt
  simp only [hiByte, BitVec.extractLsb'_toNat, Nat.shiftRight_eq_div_pow]
  omega

theorem toNat_loByte (a : Addr) : (loByte a).toNat = a.toNat % 256 := by
  simp [loByte]

/-- The page mask keeps the high byte alone. -/
theorem and_pageMask (w : Addr) : w &&& 0xFF00#16 = joinBytes (hiByte w) 0x00#8 := by
  have hmask : (0xFF00#16 : Addr) = joinBytes (BitVec.allOnes 8) 0x00#8 := rfl
  calc w &&& 0xFF00#16
      = joinBytes (hiByte w) (loByte w) &&& joinBytes (BitVec.allOnes 8) 0x00#8 := by rw [joinBytes_hiByte_loByte, hmask]
    _ = joinBytes (hiByte w &&& BitVec.allOnes 8) (loByte w &&& 0x00#8) := BitVec.and_append
    _ = joinBytes (hiByte w) 0x00#8 := by rw [BitVec.and_allOnes, BitVec.and_zero]

/-- The mask of the offset in a page keeps the low byte alone. -/
theorem and_offsetMask (w : Addr) : w &&& 0x00FF#16 = joinBytes 0x00#8 (loByte w) := by
  have hmask : (0x00FF#16 : Addr) = joinBytes 0x00#8 (BitVec.allOnes 8) := rfl
  calc w &&& 0x00FF#16
      = joinBytes (hiByte w) (loByte w) &&& joinBytes 0x00#8 (BitVec.allOnes 8) := by rw [joinBytes_hiByte_loByte, hmask]
    _ = joinBytes (hiByte w &&& 0x00#8) (loByte w &&& BitVec.allOnes 8) := BitVec.and_append
    _ = joinBytes 0x00#8 (loByte w) := by rw [BitVec.and_zero, BitVec.and_allOnes]

theorem pointerHighAddr_eq_joinBytes (ptr : Addr) :
    pointerHighAddr ptr = joinBytes (hiByte ptr) (loByte (ptr + 1)) := by
  calc pointerHighAddr ptr
      = joinBytes (hiByte ptr) 0x00#8 ||| joinBytes 0x00#8 (loByte (ptr + 1)) := by
        rw [pointerHighAddr, and_pageMask, and_offsetMask]
    _ = joinBytes (hiByte ptr ||| 0x00#8) (0x00#8 ||| loByte (ptr + 1)) := BitVec.or_append
    _ = joinBytes (hiByte ptr) (loByte (ptr + 1)) := by rw [BitVec.or_zero, BitVec.zero_or]

/-- Only the pointer's low byte counts up, modulo 256. -/
theorem toNat_pointerHighAddr (ptr : Addr) :
    (pointerHighAddr ptr).toNat = (ptr.toNat / 256) * 256 + (ptr.toNat + 1) % 256 := by
  rw [pointerHighAddr_eq_joinBytes, toNat_joinBytes, toNat_hiByte, toNat_loByte, BitVec.toNat_add]
  simp

theorem pointerHighAddr_of_low_last {ptr : Addr} (h : ptr.toNat % 256 = 0xFF) :
    pointerHighAddr ptr = ptr &&& 0xFF00#16 := by
  apply BitVec.eq_of_toNat_eq
  rw [toNat_pointerHighAddr, and_pageMask, toNat_joinBytes, toNat_hiByte, BitVec.toNat_ofNat]
  omega

theorem pointerHighAddr_of_low_not_last {ptr : Addr} (h : ptr.toNat % 256 ≠ 0xFF) : pointerHighAddr ptr = ptr + 1 := by
  apply BitVec.eq_of_toNat_eq
  have hlt : ptr.toNat < 2 ^ 16 := ptr.isLt
  rw [toNat_pointerHighAddr]
  bv_omega

/-- Settles O23: the high byte's address is the pointer's page joined with its low byte plus one; the target is the two bytes
read, joined. -/
theorem indirectTargetWrapsInThePointersPage : Obligations.IndirectTargetWrapsInThePointersPage :=
  ⟨fun ptr => ⟨toNat_pointerHighAddr ptr, pointerHighAddr_of_low_last, pointerHighAddr_of_low_not_last⟩,
    fun _ _ => ⟨toNat_joinBytes _ _, rfl⟩⟩

end Sys2Proof.Machine
end

