-- ==== Sys2Proof/Proofs/Decoder.lean ====
section
/-! PROOFS. 30_encoding.md R70 to R78, R83: the decoder and the encoder are inverse to each other. Both directions go through the row of
the opcode table that an instruction belongs to. -/

namespace Sys2Proof

/-! ### A row and the instructions it spells -/

/-- With these operand bytes after its opcode, a row of the opcode table stands for this instruction (R71, R83). -/
inductive Form.Spells : Form → List Byte → Instr → Prop where
  | f1 (i : Instr) : Form.Spells (.f1 i) [] i
  | f2 (mk : Byte → Instr) (b : Byte) : Form.Spells (.f2 mk) [b] (mk b)
  | f3 (mk : Addr → Instr) (w : Addr) : Form.Spells (.f3 mk) [loByte w, hiByte w] (mk w)

theorem Form.Spells.of_bytes (mk : Addr → Instr) (lo hi : Byte) :
    Form.Spells (.f3 mk) [lo, hi] (mk (joinBytes hi lo)) := by
  have h := Form.Spells.f3 mk (joinBytes hi lo)
  rwa [Machine.loByte_joinBytes, Machine.hiByte_joinBytes] at h

/-- Some operand bytes complete every row. -/
theorem Form.exists_spells (f : Form) : ∃ operand i, f.Spells operand i := by
  cases f with
  | f1 i => exact ⟨_, _, .f1 i⟩
  | f2 mk => exact ⟨_, _, .f2 mk 0x00#8⟩
  | f3 mk => exact ⟨_, _, .f3 mk 0x0000#16⟩

/-! ### The row of an opcode byte (R75, R78) -/

/-- What `formOf` answers is a present row of the table. -/
theorem mem_opcodeTable_of_formOf {m : StoreModes} {op : Byte} {f : Form} (h : formOf m op = some f) :
    opcodePresent m op = true ∧ (op, f) ∈ opcodeTable := by
  unfold formOf at h
  split at h
  · next hp =>
    obtain ⟨⟨op', f'⟩, hfind, rfl⟩ := Option.map_eq_some_iff.mp h
    have hop : op' = op := by simpa using List.find?_some hfind
    exact ⟨hp, hop ▸ List.mem_of_find?_eq_some hfind⟩
  · cases h

/-- Every instruction is spelled by a row, which its core has if the instruction is well-formed. -/
theorem encode_eq_row (i : Instr) :
    ∃ op f operand, encode i = op :: operand ∧ f.Spells operand i ∧
      ∀ m, Instr.wf m i = true → formOf m op = some f := by
  cases i with
  | ldaImm v => exact ⟨_, _, _, rfl, .f2 _ v, fun _ _ => rfl⟩
  | ldxImm v => exact ⟨_, _, _, rfl, .f2 _ v, fun _ _ => rfl⟩
  | ldyImm v => exact ⟨_, _, _, rfl, .f2 _ v, fun _ _ => rfl⟩
  | staZp z => exact ⟨_, _, _, rfl, .f2 _ z, fun _ _ => rfl⟩
  | staAbs a => exact ⟨_, _, _, rfl, .f3 _ a, fun _ _ => rfl⟩
  | stxZp z => exact ⟨_, _, _, rfl, .f2 .stxZp z, fun _ h => if_pos h⟩
  | stxAbs a => exact ⟨_, _, _, rfl, .f3 .stxAbs a, fun _ h => if_pos h⟩
  | styZp z => exact ⟨_, _, _, rfl, .f2 .styZp z, fun _ h => if_pos h⟩
  | styAbs a => exact ⟨_, _, _, rfl, .f3 .styAbs a, fun _ h => if_pos h⟩
  | jmpAbs t => exact ⟨_, _, _, rfl, .f3 _ t, fun _ _ => rfl⟩
  | jmpInd q => exact ⟨_, _, _, rfl, .f3 _ q, fun _ _ => rfl⟩
  | jsr t => exact ⟨_, _, _, rfl, .f3 _ t, fun _ _ => rfl⟩
  | tax | txa | tay | tya | tsx | txs | pha | php | pla | plp | rts | brk | rti | nop =>
    exact ⟨_, _, _, rfl, .f1 _, fun _ _ => rfl⟩

/-- What a row of the table spells is encoded as its opcode and those operand bytes, and is well-formed in a core that has the
opcode. -/
theorem encode_of_mem_opcodeTable {r : Byte × Form} (hr : r ∈ opcodeTable) {operand : List Byte} {i : Instr}
    (h : r.2.Spells operand i) :
    encode i = r.1 :: operand ∧ ∀ m, opcodePresent m r.1 = true → Instr.wf m i = true := by
  fin_cases hr <;> cases h <;> exact ⟨rfl, fun _ hp => hp⟩

theorem encode_of_spells {m : StoreModes} {op : Byte} {f : Form} {operand : List Byte} {i : Instr}
    (hf : formOf m op = some f) (h : f.Spells operand i) : encode i = op :: operand ∧ Instr.wf m i = true := by
  obtain ⟨hp, hmem⟩ := mem_opcodeTable_of_formOf hf
  obtain ⟨henc, hwf⟩ := encode_of_mem_opcodeTable hmem h
  exact ⟨henc, hwf m hp⟩

/-! ### The decoder by rows -/

/-- The decoder on a row's opcode and the operand bytes it spells an instruction with. -/
theorem decode_of_spells {m : StoreModes} {op : Byte} {f : Form} {operand : List Byte} {i : Instr} (rest : List Byte)
    (hf : formOf m op = some f) (h : f.Spells operand i) : decode m (op :: operand ++ rest) = .instr i rest := by
  cases h with
  | f1 i => simp only [decode, List.cons_append, List.nil_append, hf]
  | f2 mk b => exact Machine.decode_f2 b rest hf
  | f3 mk w =>
    have h := Machine.decode_f3 (loByte w) (hiByte w) rest hf
    rwa [Machine.joinBytes_hiByte_loByte] at h

/-- The decoder inverted: the bytes it reads an instruction from are a present row's opcode and its operand bytes. -/
theorem spells_of_decode {m : StoreModes} {bytes : List Byte} {i : Instr} {rest : List Byte}
    (h : decode m bytes = .instr i rest) :
    ∃ op f operand, bytes = op :: operand ++ rest ∧ formOf m op = some f ∧ f.Spells operand i := by
  match bytes with
  | [] => cases h
  | op :: bs =>
    cases hf : formOf m op with
    | none => simp [decode, hf] at h
    | some f =>
      cases f with
      | f1 j =>
        simp only [decode, hf, Decoded.instr.injEq] at h
        obtain ⟨rfl, rfl⟩ := h
        exact ⟨op, _, [], rfl, hf, .f1 j⟩
      | f2 mk =>
        match bs with
        | [] => simp [decode, hf] at h
        | b :: bs =>
          rw [Machine.decode_f2 b bs hf, Decoded.instr.injEq] at h
          obtain ⟨rfl, rfl⟩ := h
          exact ⟨op, _, [b], rfl, hf, .f2 mk b⟩
      | f3 mk =>
        match bs with
        | [] => simp [decode, hf] at h
        | [_] => simp [decode, hf] at h
        | lo :: hi :: bs =>
          rw [Machine.decode_f3 lo hi bs hf, Decoded.instr.injEq] at h
          obtain ⟨rfl, rfl⟩ := h
          exact ⟨op, _, [lo, hi], rfl, hf, .of_bytes mk lo hi⟩

/-- The decoder calls an opcode unrecognized exactly where it selects no row. -/
theorem decode_eq_unknown_iff {m : StoreModes} {op : Byte} {rest : List Byte} :
    decode m (op :: rest) = .unknown op rest ↔ formOf m op = none := by
  constructor
  · intro h
    cases hf : formOf m op with
    | none => rfl
    | some f =>
      cases f with
      | f1 i => simp [decode, hf] at h
      | f2 mk => cases rest <;> simp [decode, hf] at h
      | f3 mk =>
        match rest with
        | [] => simp [decode, hf] at h
        | [_] => simp [decode, hf] at h
        | _ :: _ :: _ => simp [decode, hf] at h
  · intro hf
    simp only [decode, hf]

/-- A row's opcode is the first byte of a well-formed instruction, and the other way round. -/
theorem formOf_eq_none_iff {m : StoreModes} {op : Byte} :
    formOf m op = none ↔ ¬ ∃ i, Instr.wf m i = true ∧ (encode i).head? = some op := by
  constructor
  · rintro hf ⟨i, hwf, hhead⟩
    obtain ⟨op', f, operand, henc, -, hrow⟩ := encode_eq_row i
    have hop : op' = op := by simpa [henc] using hhead
    simp [← hop, hrow m hwf] at hf
  · intro hno
    cases hf : formOf m op with
    | none => rfl
    | some f =>
      obtain ⟨operand, i, hs⟩ := f.exists_spells
      obtain ⟨henc, hwf⟩ := encode_of_spells hf hs
      exact absurd ⟨i, hwf, by rw [henc]; rfl⟩ hno

/-- Settles O14: the encoding is the row's opcode and operand bytes, which decode to what the row spells. -/
theorem decodeOfEncodeIsIdentity : Obligations.DecodeOfEncodeIsIdentity := by
  intro m i rest hwf
  obtain ⟨op, f, operand, henc, hs, hrow⟩ := encode_eq_row i
  rw [henc]
  exact decode_of_spells rest (hrow m hwf) hs

/-- Settles O15: the decoder reads a row's opcode and operand bytes, which are the encoding of what the row spells. -/
theorem decodedBytesAreTheEncoding : Obligations.DecodedBytesAreTheEncoding := by
  intro m bytes i rest h
  obtain ⟨op, f, operand, rfl, hf, hs⟩ := spells_of_decode h
  obtain ⟨henc, hwf⟩ := encode_of_spells hf hs
  exact ⟨hwf, by rw [henc]⟩

/-- Counted in quarters of the opcode space, so that no evaluation runs over more than 64 bytes. -/
theorem countP_unrecognized :
    ((List.range 256).countP fun n => (formOf .all (BitVec.ofNat 8 n)).isNone) = 230 := by
  have hquarters : List.range 256 = List.range' 0 (64 + 64 + 64 + 64) := List.range_eq_range'
  simp only [hquarters, ← List.range'_append_1, List.countP_append]
  rfl

/-- Settles O16: both sides say that the opcode selects no row; the 230 bytes without a row are counted. -/
theorem everyOpcodeIsARowOrUnrecognized : Obligations.EveryOpcodeIsARowOrUnrecognized :=
  ⟨fun _ _ _ => decode_eq_unknown_iff.trans formOf_eq_none_iff, countP_unrecognized⟩

/-- Settles O17: the decoder computed on each word. -/
theorem sampleBytesDecode : Obligations.SampleBytesDecode :=
  ⟨rfl, rfl, rfl, rfl, rfl, rfl, rfl, rfl, rfl⟩

end Sys2Proof
end

