-- ==== Sys2Proof/Proofs/Fetching.lean ====
section
/-! PROOFS. 40_execution_cycle.md: what a step fetches and runs. The bytes at PC are an instruction's encoding, or an opcode that
selects no row. -/

namespace Sys2Proof.Machine

/-! ### A step by what it fetches (R85, R87, R97) -/

theorem step_of_fetched_instr {s u : State} {i : Instr} (hs : s.fault = none) (h : fetchInstr s = (.instr i, u)) :
    step s = exec i u := by
  simp only [step, hs, h]

theorem step_of_fetched_unknown {s u : State} {op : Byte} (hs : s.fault = none) (h : fetchInstr s = (.unknown op, u)) :
    step s = .next (unknownOpcode op s.pc u) := by
  simp only [step, hs, h]

theorem step_of_no_row {s : State} (hs : s.fault = none) (h : formOf s.config.xyStoreModes (peek s.pc s) = none) :
    step s = .next { afterRead s.pc s with pc := s.pc + 1, trace := s.trace ++ [⟨peek s.pc s, s.pc⟩] } := by
  rw [step_of_fetched_unknown hs (fetchInstr_unknown h)]
  simp [unknownOpcode, fetch8_eq, afterRead]

/-- Settles O24: the fetch is one Fetch8, and the event is put after it. -/
theorem unrecognizedOpcodeOnlyAddsAnEvent : Obligations.UnrecognizedOpcodeOnlyAddsAnEvent :=
  fun _ => step_of_no_row

/-! ### The bytes of an instruction at PC (R86, R96) -/

/-- A row's opcode and the operand bytes it spells an instruction with are what the step's fetch takes. -/
theorem fetchInstr_of_spells {s : State} {op : Byte} {f : Form} {operand : List Byte} {i : Instr}
    (hf : formOf s.config.xyStoreModes op = some f) (h : f.Spells operand i)
    (hb : (fetchBytes (operand.length + 1) s).1 = op :: operand) :
    fetchInstr s = (.instr i, (fetchBytes (operand.length + 1) s).2) := by
  have hop : peek s.pc s = op := (List.cons.inj hb).1
  have hrest := (List.cons.inj hb).2
  rw [← hop] at hf
  cases h with
  | f1 i => exact fetchInstr_f1 hf
  | f2 mk b =>
    have hb1 : (fetch8 (fetch8 s).2).1 = b := (List.cons.inj hrest).1
    rw [fetchInstr_f2 hf, hb1]
    rfl
  | f3 mk w =>
    have hlo : (fetch8 (fetch8 s).2).1 = loByte w := (List.cons.inj hrest).1
    have hhi : (fetch8 (fetch8 (fetch8 s).2).2).1 = hiByte w := (List.cons.inj (List.cons.inj hrest).2).1
    have hw : (fetch16 (fetch8 s).2).1 = w := by
      simp only [fetch16, hlo, hhi, joinBytes_hiByte_loByte]
    rw [fetchInstr_f3 hf, hw]
    rfl

theorem fetchInstr_of_encode {s : State} {i : Instr} (hwf : Instr.wf s.config.xyStoreModes i = true)
    (hb : (fetchBytes (encode i).length s).1 = encode i) :
    fetchInstr s = (.instr i, (fetchBytes (encode i).length s).2) := by
  obtain ⟨op, f, operand, henc, hs, hrow⟩ := encode_eq_row i
  rw [henc] at hb ⊢
  exact fetchInstr_of_spells (hrow _ hwf) hs hb

theorem step_of_encode {s : State} {i : Instr} (hs : s.fault = none) (hwf : Instr.wf s.config.xyStoreModes i = true)
    (hb : (fetchBytes (encode i).length s).1 = encode i) : step s = exec i (fetchBytes (encode i).length s).2 :=
  step_of_fetched_instr hs (fetchInstr_of_encode hwf hb)

/-- Settles O25: the instruction's row fetches exactly its encoding. -/
theorem stepRunsTheFetchedInstruction : Obligations.StepRunsTheFetchedInstruction :=
  fun _ _ => step_of_encode

/-! ### Plain memory (R106) -/

theorem addr_succ_add (a : Addr) (k : Nat) : a + 1 + BitVec.ofNat 16 k = a + BitVec.ofNat 16 (k + 1) := by
  rw [Nat.add_comm k 1, BitVec.ofNat_add, BitVec.add_assoc]
  rfl

/-- Bytes that stand in memory whose reads change nothing are fetched with PC moved past them, and nothing else. -/
theorem fetchBytes_plain {bytes : List Byte} {s : State}
    (h : ∀ (k : Nat) (hk : k < bytes.length),
      isPeripheral s (s.pc + BitVec.ofNat 16 k) = false ∧ peek (s.pc + BitVec.ofNat 16 k) s = bytes[k]) :
    fetchBytes bytes.length s = (bytes, { s with pc := s.pc + BitVec.ofNat 16 bytes.length }) := by
  induction bytes generalizing s with
  | nil => simp [fetchBytes]
  | cons b bs ih =>
    obtain ⟨hplain, hbyte⟩ := h 0 (by simp)
    rw [BitVec.add_zero] at hplain hbyte
    have hrest := @ih { s with pc := s.pc + 1 } fun k hk => by
      obtain ⟨hp, hv⟩ := h (k + 1) (by simpa using hk)
      rw [← addr_succ_add] at hp hv
      exact ⟨hp, (peek_congr (s := s) (t := { s with pc := s.pc + 1 }) _ rfl rfl).trans hv⟩
    simp only [List.length_cons, fetchBytes, fetch8_plain hplain, hrest, hbyte, addr_succ_add, List.getElem_cons_zero]

/-- Settles O26: in plain memory fetching the encoding moves PC past it and leaves the rest of the state. -/
theorem stepRunsTheInstructionInPlainMemory : Obligations.StepRunsTheInstructionInPlainMemory := by
  intro s i hs hwf h
  have hfetch := fetchBytes_plain h
  rw [step_of_encode hs hwf (by rw [hfetch]), hfetch]

/-! ### Unmapped space (70_reset_and_hazards.md R194) -/

/-- 0xFF is no opcode in any core. -/
theorem formOf_unmappedByte (m : StoreModes) : formOf m 0xFF#8 = none := rfl

theorem step_of_empty_map {s : State} (hm : s.map = []) (hs : s.fault = none) :
    step s = .next { s with pc := s.pc + 1, trace := s.trace ++ [⟨0xFF#8, s.pc⟩] } := by
  have hnone : busMatch s.map s.pc = none := by rw [hm]; rfl
  have hbyte : peek s.pc s = 0xFF#8 := peek_none hnone
  have hafter : afterRead s.pc s = s := by rw [afterRead, memRead_of_unmapped hnone]
  rw [step_of_no_row hs (hbyte ▸ formOf_unmappedByte _), hbyte, hafter]

/-- Settles O57, by induction on the number of steps from the state after the first. -/
theorem unmappedSpaceIsWalkedByteByByte : Obligations.UnmappedSpaceIsWalkedByteByByte := by
  intro n
  induction n with
  | zero => intro s _ _; simp [stepMany]
  | succ n ih =>
    intro s hm hs
    rw [stepMany_succ_of_step n (step_of_empty_map hm hs)]
    refine (ih _ (by exact hm) (by exact hs)).trans ?_
    simp only [addr_succ_add]
    simp [List.range_succ_eq_map, Function.comp_def]

end Sys2Proof.Machine
end

