-- ==== Sys2Proof/Proofs/Invariant.lean ====
section
/-! PROOFS. What every step and every host operation keeps: MAP and the parameters, the event trace but for an unrecognized opcode, the
fault mark but for an unmapped write, and with them the invariant of a well-formed state. -/

namespace Sys2Proof.Machine

/-! ### The invariant -/

theorem inv_iff {s : State} :
    s.inv = true ↔ s.config.wf = true ∧ (∀ m ∈ s.map, m.size ≤ 65536 ∧ m.dev < s.devs.length) ∧
      s.devs.all Device.wf = true ∧ (s.fault = none ∨ s.config.unmappedWrite = .fault) := by
  simp only [State.inv, Bool.and_eq_true, Bool.or_eq_true, List.all_eq_true, decide_eq_true_eq, Option.isNone_iff_eq_none,
    beq_iff_eq, and_assoc]

/-- Whatever keeps MAP, the parameters, the device table's length and form, and the fault mark but for an unmapped write under
Fault, keeps the invariant. -/
theorem Keeps.inv {s t : State} (h : Keeps s t) (hs : s.inv = true) : t.inv = true := by
  obtain ⟨hconfig, hmap, hdevs, hfault⟩ := inv_iff.mp hs
  refine inv_iff.mpr ⟨by rw [h.config]; exact hconfig, by rw [h.shape.1, h.length]; exact hmap, h.wf hdevs, ?_⟩
  rw [h.config]
  rcases h.fault with hsame | ⟨hpolicy, -⟩
  · rw [hsame]; exact hfault
  · exact .inr hpolicy

theorem step_inv {s t : State} (hs : s.inv = true) (h : step s = .next t) : t.inv = true :=
  (step_keeps h).inv hs

/-- Settles O58: the invariant does not see the trace, and a step keeps everything else that it asks for. -/
theorem stepKeepsTheInvariant : Obligations.StepKeepsTheInvariant :=
  fun _ _ => step_inv

/-! ### The host's operations -/

theorem loadBytes_keeps (bytes : List Byte) (start : Addr) (s : State) : Keeps s (loadBytes start bytes s).state := by
  induction bytes generalizing start s with
  | nil => exact .refl s
  | cons v vs ih => exact andThen_keeps (memWrite_keeps start v s) fun t => ih (start + 1) t

/-- What every step keeps, the budget loop keeps. -/
theorem executeLoop_induction {P : State → Prop} (hstep : ∀ s t, P s → step s = .next t → P t) (fuel : Nat) (budget : Int)
    {s : State} (hs : P s) : P (executeLoop fuel budget s).2 := by
  induction fuel generalizing budget s with
  | zero => exact hs
  | succ fuel ih =>
    by_cases hstop : budget ≤ 0 ∨ s.fault ≠ none
    · rw [executeLoop_of_stop _ hstop]; exact hs
    · push Not at hstop
      obtain ⟨hb, hf⟩ := hstop
      obtain ⟨t, ht⟩ := exists_step_of_unmarked hf
      rw [executeLoop_succ_of_step fuel hb hf ht]
      exact ih _ (hstep s t hs ht)

/-- A mapping of legal size to a device that is in the longer table leaves the invariant. -/
theorem inv_of_attached {s : State} {m : Mapping} {added : List Device} (hs : s.inv = true) (hsize : m.size ≤ 65536)
    (hdev : m.dev < s.devs.length + added.length) (hwf : ∀ d ∈ added, d.wf = true) :
    ({ s with map := s.map ++ [m], devs := s.devs ++ added } : State).inv = true := by
  obtain ⟨hconfig, hmap, hdevs, hfault⟩ := inv_iff.mp hs
  refine inv_iff.mpr ⟨hconfig, fun n hn => ?_, ?_, hfault⟩
  · rw [List.length_append]
    rcases List.mem_append.mp hn with hn | hn
    · exact ⟨(hmap n hn).1, Nat.lt_add_right _ (hmap n hn).2⟩
    · rw [List.mem_singleton.mp hn]; exact ⟨hsize, hdev⟩
  · rw [List.all_append, hdevs, List.all_eq_true.mpr hwf, Bool.and_self]

theorem attach_inv {s : State} {base : Addr} {size : Nat} {r : DeviceRef} (hs : s.inv = true) (hsize : size ≤ 65536)
    (hfresh : ∀ d, r = .fresh d → d.wf = true) (hold : ∀ id, r = .attached id → id < s.devs.length) :
    (attach base size r s).inv = true := by
  cases r with
  | fresh d => exact inv_of_attached hs hsize (by simp) (by simpa using hfresh d rfl)
  | attached id =>
    have h := inv_of_attached (m := ⟨base, size, id⟩) (added := []) hs hsize (hold id rfl) (by simp)
    rwa [List.append_nil] at h

/-- Settles O59: an attach adds one legal mapping, `execute` is a run of steps, and the other calls are bus accesses. -/
theorem hostCallsKeepTheInvariant : Obligations.HostCallsKeepTheInvariant := by
  intro s c hs hattach
  cases c with
  | attach base size r =>
    obtain ⟨hsize, hfresh, hold⟩ := hattach base size r rfl
    exact attach_inv hs hsize hfresh hold
  | read a => exact (memRead_keeps a s).inv hs
  | write a v => exact (memWrite_keeps a v s).inv hs
  | loadProgram bytes start => exact (loadBytes_keeps bytes start s).inv hs
  | execute budget => exact executeLoop_induction (fun _ _ => step_inv) _ _ hs

/-! ### Reset -/

theorem resetWith_inv {c : Config} (h : c.spReset ≠ 0x00#8) : (State.resetWith c).inv = true :=
  inv_iff.mpr ⟨bne_iff_ne.mpr h, fun _ hm => absurd hm List.not_mem_nil, rfl, .inl rfl⟩

/-- Settles O60: the reset state's fields are its definition's, and with an empty MAP and device table the invariant asks only for
`SP_RESET`. -/
theorem resetValuesAndInvariant : Obligations.ResetValuesAndInvariant :=
  ⟨fun _ => rfl, fun _ => resetWith_inv, rfl, rfl, rfl, resetWith_inv (by decide)⟩

/-! ### What a step leaves -/

/-- Settles O51: part of what every step keeps. -/
theorem stepKeepsMapAndParameters : Obligations.StepKeepsMapAndParameters :=
  fun _ _ h => ⟨(step_keeps h).shape.1, (step_keeps h).config, (step_keeps h).length⟩

/-- Settles O29: an unmarked state's step keeps the mark or sets it so. -/
theorem faultMarkNamesAnUnmappedWrite : Obligations.FaultMarkNamesAnUnmappedWrite := by
  intro s t hs h
  have hfault := (step_keeps h).fault
  rwa [hs] at hfault

theorem fetchInstr_of_row {s : State} {f : Form} (h : formOf s.config.xyStoreModes (peek s.pc s) = some f) :
    ∃ i u, fetchInstr s = (.instr i, u) := by
  cases f with
  | f1 i => exact ⟨_, _, fetchInstr_f1 h⟩
  | f2 mk => exact ⟨_, _, fetchInstr_f2 h⟩
  | f3 mk => exact ⟨_, _, fetchInstr_f3 h⟩

/-- Neither the fetch of an instruction nor its meaning adds an event. -/
theorem step_trace_of_row {s t : State} {f : Form} (hf : formOf s.config.xyStoreModes (peek s.pc s) = some f)
    (h : step s = .next t) : t.trace = s.trace := by
  obtain ⟨i, u, hi⟩ := fetchInstr_of_row hf
  have hu : Keeps s u := by simpa [hi] using fetchInstr_keeps_all s
  obtain ⟨t', ht', hk⟩ := exec_keeps i u
  rw [step_of_fetched_instr (step_cases h).1 hi, ht'] at h
  cases h
  exact (hu.trans hk).trace

/-- Settles O52, by whether the opcode selects a row. -/
theorem traceGrowsOnlyByUnrecognizedOpcodes : Obligations.TraceGrowsOnlyByUnrecognizedOpcodes := by
  intro s t h
  constructor
  · intro hnone
    rw [step_of_no_row (step_cases h).1 hnone] at h
    cases h
    rfl
  · intro hrow
    obtain ⟨f, hf⟩ := Option.ne_none_iff_exists'.mp hrow
    exact step_trace_of_row hf h

/-! ### Which states take a step -/

/-- Settles O27: every arm of `exec` answers a next state, and so the step after any fetch does. -/
theorem noInstructionStopsTheCpu : Obligations.NoInstructionStopsTheCpu :=
  ⟨fun i s => (exec_keeps i s).imp fun _ h => h.1, fun _ => exists_step_of_unmarked⟩

/-- Settles O28: the mark is the first thing the step and the loop look at. -/
theorem markedStateTakesNoStep : Obligations.MarkedStateTakesNoStep := by
  intro s e hs
  refine ⟨by simp only [step, hs], fun budget => ?_⟩
  rw [execute, executeLeft_of_stop (.inr (by simp [hs]))]

/-- Settles O32: the first step costs at least the one unit there is. -/
theorem executeOneIsOneStep : Obligations.ExecuteOneIsOneStep := by
  intro s hs
  obtain ⟨t, ht⟩ := exists_step_of_unmarked hs
  have hspent : (1 : Int) - nextCost s ≤ 0 := by
    have hcost := one_le_nextCost s
    omega
  rw [execute, executeLeft_of_step one_pos hs ht, executeLeft_of_stop (.inl hspent), ht]

end Sys2Proof.Machine
end

