-- ==== Sys2Proof/Proofs/Bus.lean ====
section
/-! PROOFS. 20_memory.md: dispatch, what one access does to the devices and to the bytes other addresses read, `load_program`, and how
long MAP stays as it is. -/

namespace Sys2Proof.Machine

/-! ### Dispatch (R41, R47) -/

theorem contains_iff {m : Mapping} {a : Addr} :
    m.contains a = true ↔ m.base.toNat ≤ a.toNat ∧ a.toNat < m.base.toNat + m.size := by
  simp only [Mapping.contains, Bool.and_eq_true, decide_eq_true_eq]

theorem busMatch_eq_some_iff {map : List Mapping} {a : Addr} {m : Mapping} :
    busMatch map a = some m ↔
      ∃ earlier later, map = earlier ++ m :: later ∧ m.contains a = true ∧ ∀ e ∈ earlier, ¬ e.contains a = true := by
  simp only [busMatch, List.find?_eq_some_iff_append, Bool.not_eq_true', ← Bool.not_eq_true]
  constructor
  · rintro ⟨hm, earlier, later, rfl, he⟩; exact ⟨earlier, later, rfl, hm, he⟩
  · rintro ⟨earlier, later, rfl, hm, he⟩; exact ⟨hm, earlier, later, rfl, he⟩

theorem busMatch_eq_none_iff {map : List Mapping} {a : Addr} :
    busMatch map a = none ↔ ∀ e ∈ map, ¬ e.contains a = true :=
  List.find?_eq_none

/-- A mapping behind one that contains the address does not matter. -/
theorem busMatch_append_of_mem {map : List Mapping} (later : List Mapping) {a : Addr} {e : Mapping} (he : e ∈ map)
    (ha : e.contains a = true) : busMatch (map ++ later) a = busMatch map a := by
  have hsome : busMatch map a ≠ none := fun hnone => busMatch_eq_none_iff.mp hnone e he ha
  obtain ⟨m, hm⟩ := Option.ne_none_iff_exists'.mp hsome
  rw [busMatch, List.find?_append, ← busMatch, hm, Option.some_or]

/-- Settles O1: `find?` is the first match, and what is appended comes after it. -/
theorem busDispatchTakesFirstMatch : Obligations.BusDispatchTakesFirstMatch := by
  refine ⟨fun map a m => ?_, fun map a => ?_, fun map later a e he hlo hhi => ?_⟩
  · simp only [busMatch_eq_some_iff, contains_iff]
  · simp only [busMatch_eq_none_iff, contains_iff]
  · exact busMatch_append_of_mem later he (contains_iff.mpr ⟨hlo, hhi⟩)

/-! ### One access and the devices (R44, R51, R52) -/

theorem memWrite_of_unmapped_drop {s : State} {a : Addr} (v : Byte) (h : busMatch s.map a = none)
    (hp : s.config.unmappedWrite = .drop) : memWrite a v s = .done s := by
  simp only [memWrite, h, hp]

theorem memWrite_of_unmapped_fault {s : State} {a : Addr} (v : Byte) (h : busMatch s.map a = none)
    (hp : s.config.unmappedWrite = .fault) : memWrite a v s = .raised (s.mark a v) := by
  simp only [memWrite, h, hp]

theorem memWrite_devs_of_unmapped {s : State} {a : Addr} (v : Byte) (h : busMatch s.map a = none) :
    (memWrite a v s).state.devs = s.devs := by
  cases hp : s.config.unmappedWrite with
  | drop => rw [memWrite_of_unmapped_drop v h hp, done_state]
  | fault => rw [memWrite_of_unmapped_fault v h hp, raised_state, mark_devs]

/-- Settles O4: the two policies of an unmapped write. -/
theorem unmappedWriteFollowsPolicy : Obligations.UnmappedWriteFollowsPolicy :=
  fun _ _ v h => ⟨memWrite_of_unmapped_drop v h, memWrite_of_unmapped_fault v h⟩

/-- Settles O5: an access puts back the device of the first match, or none. -/
theorem eachAccessReachesOneDevice : Obligations.EachAccessReachesOneDevice := by
  intro s a v
  refine ⟨fun m hm => ?_, fun hnone => ?_, memRead_devs_length a s, (memWrite_keeps a v s).length⟩
  · rw [memRead_of_match hm, memWrite_of_match v hm]
    exact ⟨rfl, fun other ho => ⟨device_setDevice_other s _ _ _ ho, device_setDevice_other s _ _ _ ho⟩⟩
  · rw [memRead_of_unmapped hnone]
    exact ⟨rfl, memWrite_devs_of_unmapped v hnone⟩

/-- A read through one mapping of a device sees that device as a write through another left it. -/
theorem memRead_memWrite_of_shared {s : State} {a b : Addr} (v : Byte) {ma mb : Mapping} (ha : busMatch s.map a = some ma)
    (hb : busMatch s.map b = some mb) (hdev : ma.dev = mb.dev) (hin : ma.dev < s.devs.length) :
    (memRead b (memWrite a v s).state).1 = (((s.device ma.dev).write (ma.offset a) v).read (mb.offset b)).1 := by
  rw [memWrite_of_match v ha, done_state, memRead_of_match (m := mb) (by rw [setDevice_map]; exact hb), ← hdev,
    device_setDevice_same _ _ _ hin]

/-- Settles O6: the write puts back the one state that the device has, and the read asks it. -/
theorem sharedDeviceHasOneState : Obligations.SharedDeviceHasOneState := by
  refine ⟨fun s a b v ma mb ha hb hdev hin => ?_, fun _ _ _ _ => rfl⟩
  have hread := memRead_memWrite_of_shared v ha hb hdev hin
  refine ⟨hread, fun last cells hram hoff => ?_⟩
  have hoff : ma.offset a % (last + 1) = mb.offset b % (last + 1) := hoff
  rw [hread, hram]
  simp only [Device.write, Device.read, hoff, Memory.read_write_same]

/-! ### One access and the bytes (R45, R50, R57, R67) -/

/-- Settles O7: a RAM takes the write, and every address of that byte reads it. -/
theorem ramReadGivesLastWrite : Obligations.RamReadGivesLastWrite :=
  fun s a _ v hram hsame =>
    ⟨stored a v s, memWrite_of_storeOk v (storeOk_of_isRam hram), peek_stored_same v hram (sameSite_self hram),
      peek_stored_same v hram hsame⟩

/-- Settles O8: a write that is done has the frame of a store, and one that raises leaves the devices. -/
theorem writeLeavesOtherBytes : Obligations.WriteLeavesOtherBytes := by
  intro s a b v hsite
  rcases memWrite_cases a v s with ⟨-, h⟩ | ⟨-, -, -, h⟩
  · rw [h, done_state, peek_stored_other v hsite]
  · rw [h, raised_state]; exact peek_congr b rfl rfl

theorem memWrite_of_isRom {s : State} {a : Addr} (v : Byte) (h : isRom s a = true) : memWrite a v s = .done s := by
  rw [isRom_eq] at h
  obtain ⟨m, hm, hshape⟩ := (Option.any_eq_true _ _).mp h
  have hkept : (s.device m.dev).write (m.offset a) v = s.device m.dev := by
    cases hd : s.device m.dev with
    | ram last cells => simp [hd, Device.shape] at hshape
    | rom last cells => rfl
    | peripheral kind inner => simp [hd, Device.shape] at hshape
  rw [memWrite_of_match v hm, hkept, setDevice_device]

/-- Settles O9: a read outside the peripherals, and a write to a ROM, put the device back as it was. -/
theorem plainReadsAndRomWritesChangeNothing : Obligations.PlainReadsAndRomWritesChangeNothing :=
  fun _ _ v => ⟨fun h => by rw [memRead_plain h], memWrite_of_isRom v⟩

/-! ### `load_program` (R61, R62) -/

theorem loadProgram_cons_of_storeOk {s : State} {start : Addr} (v : Byte) (rest : List Byte) (h : storeOk s start = true) :
    loadProgram (v :: rest) start s = loadProgram rest (start + 1) (stored start v s) := by
  rw [loadProgram, loadBytes, memWrite_of_storeOk v h, done_andThen, loadProgram]

theorem loadProgram_cons_of_not_storeOk {s : State} {start : Addr} (v : Byte) (rest : List Byte)
    (h : storeOk s start = false) : loadProgram (v :: rest) start s = s.mark start v := by
  rw [loadProgram, loadBytes, memWrite_of_not_storeOk v h, raised_andThen, raised_state]

theorem storeOk_of_drop {s : State} (a : Addr) (h : s.config.unmappedWrite = .drop) : storeOk s a = true := by
  simp [storeOk, h]

theorem storeOk_of_mapped {s : State} {a : Addr} (h : (busMatch s.map a).isSome) : storeOk s a = true := by
  simp [storeOk, h]

theorem not_storeOk_of_unmapped_fault {s : State} {a : Addr} (h : busMatch s.map a = none)
    (hp : s.config.unmappedWrite = .fault) : storeOk s a = false := by
  simp [storeOk, h, hp]

/-- Bytes in front of the first unmapped one are written as if they were the whole program. -/
theorem loadProgram_of_first_unmapped {before : List Byte} (v : Byte) (after : List Byte) {start : Addr} {s : State}
    (hp : s.config.unmappedWrite = .fault)
    (hmapped : ∀ k, k < before.length → (busMatch s.map (start + BitVec.ofNat 16 k)).isSome)
    (hnone : busMatch s.map (start + BitVec.ofNat 16 before.length) = none) :
    loadProgram (before ++ v :: after) start s =
      (loadProgram before start s).mark (start + BitVec.ofNat 16 before.length) v := by
  induction before generalizing start s with
  | nil =>
    rw [List.length_nil, BitVec.add_zero] at hnone ⊢
    rw [List.nil_append, loadProgram_cons_of_not_storeOk v after (not_storeOk_of_unmapped_fault hnone hp)]
    rfl
  | cons w ws ih =>
    have hok : storeOk s start = true := by
      have h0 := hmapped 0 (Nat.zero_lt_succ _)
      rw [BitVec.add_zero] at h0
      exact storeOk_of_mapped h0
    rw [List.cons_append, loadProgram_cons_of_storeOk w _ hok, loadProgram_cons_of_storeOk w ws hok, List.length_cons,
      ← addr_succ_add]
    refine ih (by rw [stored_config]; exact hp) (fun k hk => ?_) ?_
    · rw [stored_map, addr_succ_add]
      exact hmapped (k + 1) (Nat.succ_lt_succ hk)
    · rw [stored_map, addr_succ_add]
      exact hnone

/-- Settles O10: under Drop every write completes; under Fault the first unmapped byte raises after the ones before it. -/
theorem loadProgramIsNotAtomic : Obligations.LoadProgramIsNotAtomic :=
  ⟨fun _ v rest start hp => ⟨rfl, loadProgram_cons_of_storeOk v rest (storeOk_of_drop start hp)⟩,
    fun _ _ v after _ hp hmapped hnone => loadProgram_of_first_unmapped v after hp hmapped hnone⟩

/-! ### One RAM over the whole space (95_test_vectors.md section 0) -/

/-- MAP is one RAM of 65536 bytes from address 0 on. -/
def State.OneRam (s : State) : Prop :=
  ∃ id, s.map = [⟨0x0000#16, 65536, id⟩] ∧ (s.device id).shape = (0, 65535)

theorem State.OneRam.congr {s t : State} (hs : s.OneRam) (h : SameShape s t) : t.OneRam := by
  obtain ⟨id, hmap, hshape⟩ := hs
  exact ⟨id, h.1.trans hmap, (h.2 id).trans hshape⟩

theorem busMatch_of_whole_space (id : Nat) (a : Addr) :
    busMatch [⟨0x0000#16, 65536, id⟩] a = some ⟨0x0000#16, 65536, id⟩ := by
  have hlt : a.toNat < 65536 := a.isLt
  have hin : (⟨0x0000#16, 65536, id⟩ : Mapping).contains a = true := contains_iff.mpr ⟨Nat.zero_le _, by simpa using hlt⟩
  exact List.find?_cons_of_pos hin

theorem State.OneRam.isRam {s : State} (hs : s.OneRam) (a : Addr) : isRam s a = true := by
  obtain ⟨id, hmap, hshape⟩ := hs
  rw [isRam_eq, hmap, busMatch_of_whole_space, Option.any_some, hshape]
  rfl

/-- Every address has a byte of its own. -/
theorem State.OneRam.sameSite {s : State} (hs : s.OneRam) {a b : Addr} (h : b ≠ a) : sameSite s a b = false := by
  obtain ⟨id, hmap, hshape⟩ := hs
  have ha : a.toNat < 65536 := a.isLt
  have hb : b.toNat < 65536 := b.isLt
  have hne : a.toNat ≠ b.toNat := fun e => h (BitVec.eq_of_toNat_eq e.symm)
  simp only [Machine.sameSite, busSite_eq, hmap, busMatch_of_whole_space, hshape, Option.map_some]
  simpa [Nat.mod_eq_of_lt ha, Nat.mod_eq_of_lt hb] using hne

theorem State.OneRam.peek_stored {s : State} (hs : s.OneRam) (a b : Addr) (v : Byte) :
    peek b (stored a v s) = if b = a then v else peek b s := by
  split
  · next h => rw [h, peek_stored_same v (hs.isRam a) (sameSite_self (hs.isRam a))]
  · next h => exact peek_stored_other v (hs.sameSite h)

theorem State.OneRam.loadProgram_cons {s : State} (hs : s.OneRam) (start : Addr) (v : Byte) (rest : List Byte) :
    loadProgram (v :: rest) start s = loadProgram rest (start + 1) (stored start v s) :=
  loadProgram_cons_of_storeOk v rest (storeOk_of_isRam (hs.isRam start))

theorem State.OneRam.loadProgram_after {s : State} (hs : s.OneRam) (bytes : List Byte) (start : Addr) :
    ∃ devs, loadProgram bytes start s = { s with devs := devs } := by
  induction bytes generalizing start s with
  | nil => exact ⟨s.devs, rfl⟩
  | cons v vs ih =>
    obtain ⟨devs, hstored, -⟩ := stored_after start v s
    obtain ⟨devs', h⟩ := ih (hs.congr (stored_sameShape start v s)) (start + 1)
    exact ⟨devs', by rw [hs.loadProgram_cons, h, hstored]⟩

/-- An address at which no byte is written reads as before. -/
theorem State.OneRam.peek_loadProgram_other {s : State} (hs : s.OneRam) {bytes : List Byte} {start b : Addr}
    (hb : ∀ k, k < bytes.length → b ≠ start + BitVec.ofNat 16 k) : peek b (loadProgram bytes start s) = peek b s := by
  induction bytes generalizing start s with
  | nil => rfl
  | cons v vs ih =>
    have hhead : b ≠ start := by simpa using hb 0 (Nat.zero_lt_succ _)
    rw [hs.loadProgram_cons, ih (hs.congr (stored_sameShape start v s)) fun k hk => ?_, hs.peek_stored, if_neg hhead]
    rw [addr_succ_add]
    exact hb (k + 1) (Nat.succ_lt_succ hk)

/-- Byte `k` stands at `start + k`: no later byte of at most 65536 comes round to its address. -/
theorem State.OneRam.peek_loadProgram {s : State} (hs : s.OneRam) {bytes : List Byte} (hlen : bytes.length ≤ 65536)
    (start : Addr) (k : Nat) (hk : k < bytes.length) :
    peek (start + BitVec.ofNat 16 k) (loadProgram bytes start s) = bytes[k] := by
  induction bytes generalizing start s k with
  | nil => exact absurd hk (Nat.not_lt_zero k)
  | cons v vs ih =>
    rw [List.length_cons] at hlen hk
    have hs' := hs.congr (stored_sameShape start v s)
    rw [hs.loadProgram_cons]
    cases k with
    | zero =>
      have hnot : ∀ j, j < vs.length → start ≠ start + 1 + BitVec.ofNat 16 j := by
        intro j hj
        bv_omega
      rw [BitVec.add_zero, hs'.peek_loadProgram_other hnot, hs.peek_stored, if_pos rfl, List.getElem_cons_zero]
    | succ k =>
      rw [← addr_succ_add, ih hs' (by omega) (start + 1) k (by omega), List.getElem_cons_succ]

/-- Settles O11: in one RAM over the whole space every byte goes to an address of its own. -/
theorem loadProgramFillsRam : Obligations.LoadProgramFillsRam := by
  intro s id cells bytes start hmap hdev hlen
  have hs : s.OneRam := ⟨id, hmap, by rw [hdev]; rfl⟩
  obtain ⟨devs, h⟩ := hs.loadProgram_after bytes start
  exact ⟨devs, h, hs.peek_loadProgram hlen start, fun b => hs.peek_loadProgram_other⟩

/-! ### MAP (R46, R63, R65) -/

theorem executeLoop_map (fuel : Nat) (budget : Int) (s : State) : (executeLoop fuel budget s).2.map = s.map :=
  executeLoop_induction (P := fun t => t.map = s.map) (fun _ _ ht h => (step_keeps h).shape.1.trans ht) fuel budget rfl

theorem hostCall_map {c : HostCall} (s : State) (hc : ∀ base size r, c ≠ .attach base size r) :
    (hostCall c s).2.map = s.map := by
  cases c with
  | attach base size r => exact absurd rfl (hc base size r)
  | read a => exact memRead_map a s
  | write a v => exact (memWrite_keeps a v s).shape.1
  | loadProgram bytes start => exact (loadBytes_keeps bytes start s).shape.1
  | execute budget => exact executeLoop_map _ budget s

theorem runCalls_map_of_no_attach {cs : List HostCall} (s : State)
    (hcs : ∀ c ∈ cs, ∀ base size r, c ≠ .attach base size r) : (runCalls cs s).2.map = s.map := by
  induction cs generalizing s with
  | nil => rfl
  | cons c cs ih =>
    obtain ⟨hc, hcs⟩ := List.forall_mem_cons.mp hcs
    exact (ih _ hcs).trans (hostCall_map s hc)

theorem no_attach_of_admissible {b : Int} {cs : List HostCall} (h : admissible (.execute b :: cs) = true) :
    ∀ c ∈ HostCall.execute b :: cs, ∀ base size r, c ≠ .attach base size r := by
  refine List.forall_mem_cons.mpr ⟨by simp, fun c hc base size r e => ?_⟩
  have hall := List.all_eq_true.mp h c hc
  simp [e] at hall

theorem hostCall_map_append (c : HostCall) (s : State) : ∃ added, (hostCall c s).2.map = s.map ++ added := by
  cases c with
  | attach base size r => cases r <;> exact ⟨_, rfl⟩
  | read a => exact ⟨[], by rw [hostCall_map s (by simp), List.append_nil]⟩
  | write a v => exact ⟨[], by rw [hostCall_map s (by simp), List.append_nil]⟩
  | loadProgram bytes start => exact ⟨[], by rw [hostCall_map s (by simp), List.append_nil]⟩
  | execute budget => exact ⟨[], by rw [hostCall_map s (by simp), List.append_nil]⟩

theorem runCalls_map_append (cs : List HostCall) (s : State) : ∃ added, (runCalls cs s).2.map = s.map ++ added := by
  induction cs generalizing s with
  | nil => exact ⟨[], (List.append_nil _).symm⟩
  | cons c cs ih =>
    obtain ⟨first, hfirst⟩ := hostCall_map_append c s
    obtain ⟨rest, hrest⟩ := ih (hostCall c s).2
    exact ⟨first ++ rest, hrest.trans (by rw [hfirst, List.append_assoc])⟩

/-- A fresh device joins behind the devices there are. -/
theorem device_attach_fresh (s : State) (base : Addr) (size : Nat) (d : Device) :
    (attach base size (.fresh d) s).device s.devs.length = d ∧
      ∀ id, id < s.devs.length → (attach base size (.fresh d) s).device id = s.device id := by
  constructor
  · simp [attach, State.device]
  · intro id hid
    simp [attach, State.device, List.getElem?_append_left hid]

/-- Settles O13: only `attach` appends to MAP, and an admissible session has none after its first `execute`. -/
theorem mapIsFixedOnceExecuting : Obligations.MapIsFixedOnceExecuting :=
  ⟨fun _ _ s h => runCalls_map_of_no_attach s (no_attach_of_admissible h), fun s _ => hostCall_map s, fun _ _ _ _ => rfl,
    fun s base size d => ⟨rfl, device_attach_fresh s base size d⟩, runCalls_map_append⟩

end Sys2Proof.Machine
end

