-- ==== Sys2Proof/Proofs/Results.lean ====
section
/-! PROOFS. 41_load_store.md to 45_interrupt_nop.md: the whole result of every instruction, from the state after its operand fetch. -/

namespace Sys2Proof.Machine

/-! ### The stack byte's address (10_state.md R24) -/

theorem toNat_stackAddr (sp : Byte) : (stackAddr sp).toNat = 0x0100 + sp.toNat := by
  have hlt : sp.toNat < 2 ^ 8 := sp.isLt
  have hz : (zext16 sp).toNat = sp.toNat := toNat_zeroPageAddr sp
  rw [stackAddr, BitVec.toNat_add, hz, BitVec.toNat_ofNat]
  omega

/-- Settles O22: the page's start and SP add up without a carry out of the page. -/
theorem stackByteStaysInStackPage : Obligations.StackByteStaysInStackPage := by
  intro sp
  have hlt : sp.toNat < 2 ^ 8 := sp.isLt
  have h := toNat_stackAddr sp
  exact ⟨h, by omega, by omega⟩

/-! ### Loads and transfers (R110 to R112, R130 to R135) -/

/-- Settles O34: each load puts the byte in its register and SetZN's status byte in P. -/
theorem loadImmediateResults : Obligations.LoadImmediateResults :=
  fun s v => ⟨withZN v s.p, withZN_zNFrom v s.p, rfl, rfl, rfl, rfl, rfl, rfl⟩

/-- Settles O37: each transfer puts the source in its destination and SetZN's status byte in P. -/
theorem transferResults : Obligations.TransferResults :=
  fun s =>
    ⟨⟨rfl, withZN s.a s.p, withZN_zNFrom s.a s.p, rfl⟩, ⟨rfl, withZN s.x s.p, withZN_zNFrom s.x s.p, rfl⟩,
      ⟨rfl, withZN s.a s.p, withZN_zNFrom s.a s.p, rfl⟩, ⟨rfl, withZN s.y s.p, withZN_zNFrom s.y s.p, rfl⟩,
      ⟨rfl, withZN s.sp s.p, withZN_zNFrom s.sp s.p, rfl⟩⟩

/-- Settles O38: NOP's handler units are none in every core, so the fetch's unit is its COST. -/
theorem txsAndNopResults : Obligations.TxsAndNopResults :=
  fun _ => ⟨rfl, rfl, rfl, rfl, fun c => by rw [Cost.of_eq, Cost.handlerUnits_nop]⟩

/-! ### Stores (R113 to R118) -/

theorem memWrite_outcome_of_storeOk {a : Addr} {s : State} (v : Byte) (h : storeOk s a = true) :
    (memWrite a v s).outcome = .next (stored a v s) := by
  rw [memWrite_of_storeOk v h, done_outcome]

theorem memWrite_outcome_of_not_storeOk {a : Addr} {s : State} (v : Byte) (h : storeOk s a = false) :
    (memWrite a v s).outcome = .next { s with fault := some ⟨a, v⟩ } := by
  rw [memWrite_of_not_storeOk v h, raised_outcome, State.mark]

/-- Settles O35: each zero-page store is one bus write, of A, X or Y. -/
theorem zeroPageStoreResults : Obligations.ZeroPageStoreResults :=
  fun s _ => ⟨rfl, rfl, rfl,
    fun h => ⟨memWrite_outcome_of_storeOk s.a h, memWrite_outcome_of_storeOk s.x h, memWrite_outcome_of_storeOk s.y h⟩,
    fun h => ⟨memWrite_outcome_of_not_storeOk s.a h, memWrite_outcome_of_not_storeOk s.x h,
      memWrite_outcome_of_not_storeOk s.y h⟩⟩

/-- Settles O36: each absolute store is one bus write, of A, X or Y. -/
theorem absoluteStoreResults : Obligations.AbsoluteStoreResults :=
  fun s _ => ⟨rfl, rfl, rfl,
    fun h => ⟨memWrite_outcome_of_storeOk s.a h, memWrite_outcome_of_storeOk s.x h, memWrite_outcome_of_storeOk s.y h⟩,
    fun h => ⟨memWrite_outcome_of_not_storeOk s.a h, memWrite_outcome_of_not_storeOk s.x h,
      memWrite_outcome_of_not_storeOk s.y h⟩⟩

/-! ### Pushes and pulls (R140 to R143) -/

theorem push_outcome_of_storeOk {s : State} (v : Byte) (h : storeOk s (stackAddr s.sp) = true) :
    (push v s).outcome = .next { stored (stackAddr s.sp) v s with sp := s.sp - 1 } := by
  rw [push_of_storeOk v h, done_outcome]

theorem push_outcome_of_not_storeOk {s : State} (v : Byte) (h : storeOk s (stackAddr s.sp) = false) :
    (push v s).outcome = .next { s with fault := some ⟨stackAddr s.sp, v⟩ } := by
  rw [push_of_not_storeOk v h, raised_outcome, State.mark]

/-- Settles O39: both are one push, of A or of P with Break set. -/
theorem pushResults : Obligations.PushResults :=
  fun s => ⟨rfl, rfl,
    fun h => ⟨push_outcome_of_storeOk s.a h, push_outcome_of_storeOk (pushedStatus s.p) h⟩,
    fun h => ⟨push_outcome_of_not_storeOk s.a h, push_outcome_of_not_storeOk (pushedStatus s.p) h⟩⟩

theorem exec_pla_eq (s : State) :
    exec .pla s = .next { afterRead (stackAddr (s.sp + 1)) s with
      sp := s.sp + 1
      a := peek (stackAddr (s.sp + 1)) s
      p := withZN (peek (stackAddr (s.sp + 1)) s) s.p } := by
  simp only [exec, execPla, pull_eq, setZN, afterRead, memRead_p]

theorem exec_plp_eq (s : State) :
    exec .plp s = .next { afterRead (stackAddr (s.sp + 1)) s with
      sp := s.sp + 1
      p := peek (stackAddr (s.sp + 1)) s } := by
  simp only [exec, execPlp, pull_eq]

/-- Settles O40: both are one pull, whose byte goes to A and SetZN, or to P. -/
theorem pullResults : Obligations.PullResults :=
  fun s => ⟨rfl, rfl, ⟨_, withZN_zNFrom _ _, exec_pla_eq s⟩, exec_plp_eq s⟩

/-! ### Jumps and subroutines (R150 to R153) -/

/-- Settles O41: the operand, or the two bytes read at the pointer, joined. -/
theorem jumpResults : Obligations.JumpResults :=
  fun _ _ => ⟨rfl, rfl, rfl, _, toNat_joinBytes _ _, rfl⟩

theorem exec_jsr_eq (target : Addr) (s : State) :
    exec (.jsr target) s = ((pushAddr (s.pc - 1) s).andThen fun t => .done { t with pc := target }).outcome := rfl

/-- Settles O42, by the three ways two pushes in a row can end. -/
theorem jsrResults : Obligations.JsrResults := by
  refine fun s target => ⟨rfl, fun h1 h2 => ?_, fun h => ?_, fun h1 h2 => ?_⟩
  · rw [exec_jsr_eq, pushAddr_of_storeOk _ h1 h2, done_andThen, done_outcome]
  · rw [exec_jsr_eq, pushAddr_of_first_raising _ h, raised_andThen, raised_outcome, State.mark]
  · rw [exec_jsr_eq, pushAddr_of_second_raising _ h1 h2, raised_andThen, raised_outcome]

theorem exec_rts_eq (s : State) :
    exec .rts s = .next
      { afterRead (stackAddr (s.sp + 2)) (afterRead (stackAddr (s.sp + 1)) s) with
        sp := s.sp + 2
        pc := joinBytes (peek (stackAddr (s.sp + 2)) (afterRead (stackAddr (s.sp + 1)) s)) (peek (stackAddr (s.sp + 1)) s)
          + 1 } := by
  simp only [exec, execRts, pullAddr_eq]

/-- Settles O43: the pulled address is the two bytes joined, and the one added wraps. -/
theorem rtsResults : Obligations.RtsResults := by
  refine fun s => ⟨rfl, _, _, _, rfl, rfl, ?_, exec_rts_eq s⟩
  rw [BitVec.toNat_add, toNat_joinBytes]
  rfl

/-! ### Break and the return from it (R160, R161) -/

/-- The status byte BRK leaves: I set, the other flags kept. -/
theorem getFlag_interruptDisabled (p : Byte) (f : Flag) :
    getFlag (setFlag p .interruptDisable true) f = if f = .interruptDisable then true else getFlag p f :=
  getFlag_setFlag p .interruptDisable f true

/-- Settles O44: the trap entry whose three pushes complete. -/
theorem brkResults : Obligations.BrkResults := by
  refine fun s => ⟨rfl, fun h1 h2 h3 => ?_⟩
  refine ⟨(skipBreakBytes s).pc, _, setFlag s.p .interruptDisable true, _, toNat_skipBreakBytes_pc s, rfl, ?_, fun f hf => ?_,
    toNat_joinBytes _ _, ?_⟩
  · rw [getFlag_interruptDisabled, if_pos rfl]
  · rw [getFlag_interruptDisabled, if_neg hf]
  · rw [exec, execBrk, takeBreak_of_storeOk h1 h2 h3 rfl rfl, done_outcome]
    rfl

/-- Skipping bytes after a store is skipping them before it. -/
theorem stored_skipBreakBytes (a : Addr) (v : Byte) (s : State) :
    stored a v (skipBreakBytes s) = skipBreakBytes (stored a v s) := by
  obtain ⟨devs, h, -⟩ := stored_after a v s
  rw [stored_congr a v s (skipBreakBytes s) rfl rfl, h]
  rfl

/-- Settles O45, by the push that raises. -/
theorem brkStopsAtARaisingPush : Obligations.BrkStopsAtARaisingPush := by
  intro s ret hret
  obtain rfl : ret = (skipBreakBytes s).pc := BitVec.eq_of_toNat_eq (hret.trans (toNat_skipBreakBytes_pc s).symm)
  refine ⟨fun h => ?_, fun h1 h2 => ?_, fun h1 h2 h3 => ?_⟩
  · rw [exec, execBrk, takeBreak_of_first_raising h, raised_outcome]
    rfl
  · rw [exec, execBrk, takeBreak_of_second_raising h1 h2, raised_outcome, stored_skipBreakBytes]
    simp [skipBreakBytes]
  · rw [exec, execBrk, takeBreak_of_third_raising h1 h2 h3, raised_outcome, stored_skipBreakBytes, stored_skipBreakBytes]
    simp [skipBreakBytes, pushedStatus_eq]

/-- A read after other registers are put in is the read, with them put in after it. -/
theorem afterRead_withRegistersOf (r s : State) (b : Addr) :
    afterRead b (s.withRegistersOf r) = (afterRead b s).withRegistersOf r := by
  rw [afterRead, memRead_withRegistersOf, ← afterRead]

theorem peek_withRegistersOf (r s : State) (b : Addr) : peek b (s.withRegistersOf r) = peek b s := by
  rw [peek, memRead_withRegistersOf, ← peek]

/-- Pulling an address sees SP and, of the rest, only MAP and the devices. -/
theorem pullAddr_withRegistersOf (r s : State) :
    pullAddr (s.withRegistersOf r) =
      (joinBytes (peek (stackAddr (r.sp + 2)) (afterRead (stackAddr (r.sp + 1)) s)) (peek (stackAddr (r.sp + 1)) s),
       (afterRead (stackAddr (r.sp + 2)) (afterRead (stackAddr (r.sp + 1)) s)).withRegistersOf
         { r with sp := r.sp + 2 }) := by
  have hsp : (s.withRegistersOf r).sp = r.sp := rfl
  rw [pullAddr_eq, hsp]
  simp only [peek_withRegistersOf, afterRead_withRegistersOf]
  rfl

theorem exec_rti_eq (s : State) :
    exec .rti s = .next
      { afterRead (stackAddr (s.sp + 3)) (afterRead (stackAddr (s.sp + 2)) (afterRead (stackAddr (s.sp + 1)) s)) with
        sp := s.sp + 3
        p := peek (stackAddr (s.sp + 1)) s
        pc := joinBytes
          (peek (stackAddr (s.sp + 3)) (afterRead (stackAddr (s.sp + 2)) (afterRead (stackAddr (s.sp + 1)) s)))
          (peek (stackAddr (s.sp + 2)) (afterRead (stackAddr (s.sp + 1)) s)) } := by
  have hpulled : ({ (pull s).2 with p := (pull s).1 } : State) =
      (afterRead (stackAddr (s.sp + 1)) s).withRegistersOf
        { afterRead (stackAddr (s.sp + 1)) s with sp := s.sp + 1, p := peek (stackAddr (s.sp + 1)) s } := by
    rw [pull_eq]; rfl
  have hsp2 : s.sp + 1 + 1 = s.sp + 2 := BitVec.add_assoc s.sp 1 1
  have hsp3 : s.sp + 1 + 2 = s.sp + 3 := BitVec.add_assoc s.sp 1 2
  rw [exec, execRti, returnFromBreak_eq, hpulled, pullAddr_withRegistersOf]
  simp only [hsp2, hsp3]
  simp [State.withRegistersOf, afterRead]

/-- Settles O46: a pull to P, and a pulled address to PC. -/
theorem rtiResults : Obligations.RtiResults :=
  fun s => ⟨rfl, _, _, _, _, rfl, rfl, rfl, toNat_joinBytes _ _, exec_rti_eq s⟩

end Sys2Proof.Machine
end

