-- ==== Sys2Proof/Proofs/StoreSeen.lean ====
section
/-! PROOFS. What stands in the stack after JSR and BRK, and 20_memory.md R69: the next fetch sees what an instruction has just stored. -/

namespace Sys2Proof.Machine

/-- A byte read in one state is read in every state with the same MAP and devices. -/
theorem peek_of_same_memory {s t : State} {b : Addr} {v : Byte} (h : peek b s = v) (hm : t.map = s.map)
    (hd : t.devs = s.devs) : peek b t = v :=
  (peek_congr b hm hd).trans h

/-! ### One store, seen from a state with the same kinds of devices -/

section
variable {s w : State} (h : SameShape s w)
include h

theorem peek_stored_ram {a : Addr} (v : Byte) (ha : isRam s a = true) : peek a (stored a v w) = v := by
  have hw : isRam w a = true := (isRam_congr h a).trans ha
  exact peek_stored_same v hw (sameSite_self hw)

theorem peek_stored_elsewhere {a b : Addr} (v : Byte) (hsite : sameSite s a b = false) :
    peek b (stored a v w) = peek b w :=
  peek_stored_other v ((sameSite_congr h a b).trans hsite)

end

/-! ### The bytes JSR and BRK push -/

/-- Both bytes of an address are stored where two pushes put them, the high byte first. -/
def storedAddr (w : Addr) (s : State) : State :=
  stored (stackAddr (s.sp - 1)) (loByte w) (stored (stackAddr s.sp) (hiByte w) s)

/-- The return address and the status byte are stored where BRK's three pushes put them. -/
def storedBreak (ret : Addr) (s : State) : State :=
  stored (stackAddr (s.sp - 2)) (pushedStatus s.p) (storedAddr ret s)

theorem storedAddr_sameShape (w : Addr) (s : State) : SameShape s (storedAddr w s) :=
  (stored_sameShape _ _ s).trans (stored_sameShape _ _ _)

theorem storedBreak_sameShape (ret : Addr) (s : State) : SameShape s (storedBreak ret s) :=
  (storedAddr_sameShape ret s).trans (stored_sameShape _ _ _)

@[simp] theorem storedAddr_fault (w : Addr) (s : State) : (storedAddr w s).fault = s.fault := by simp [storedAddr]

@[simp] theorem storedBreak_fault (ret : Addr) (s : State) : (storedBreak ret s).fault = s.fault := by simp [storedBreak]

section
variable {s : State} (ret : Addr)

theorem peek_storedAddr_lo (h : isRam s (stackAddr (s.sp - 1)) = true) :
    peek (stackAddr (s.sp - 1)) (storedAddr ret s) = loByte ret :=
  peek_stored_ram (stored_sameShape _ _ s) _ h

theorem peek_storedAddr_hi (h : isRam s (stackAddr s.sp) = true)
    (hsite : sameSite s (stackAddr (s.sp - 1)) (stackAddr s.sp) = false) :
    peek (stackAddr s.sp) (storedAddr ret s) = hiByte ret :=
  (peek_stored_elsewhere (stored_sameShape _ _ s) _ hsite).trans (peek_stored_ram (.refl s) _ h)

theorem peek_storedBreak_status (h : isRam s (stackAddr (s.sp - 2)) = true) :
    peek (stackAddr (s.sp - 2)) (storedBreak ret s) = pushedStatus s.p :=
  peek_stored_ram (storedAddr_sameShape ret s) _ h

theorem peek_storedBreak_lo (h : isRam s (stackAddr (s.sp - 1)) = true)
    (hsite : sameSite s (stackAddr (s.sp - 2)) (stackAddr (s.sp - 1)) = false) :
    peek (stackAddr (s.sp - 1)) (storedBreak ret s) = loByte ret :=
  (peek_stored_elsewhere (storedAddr_sameShape ret s) _ hsite).trans (peek_storedAddr_lo ret h)

theorem peek_storedBreak_hi (h : isRam s (stackAddr s.sp) = true)
    (hsite1 : sameSite s (stackAddr (s.sp - 1)) (stackAddr s.sp) = false)
    (hsite2 : sameSite s (stackAddr (s.sp - 2)) (stackAddr s.sp) = false) :
    peek (stackAddr s.sp) (storedBreak ret s) = hiByte ret :=
  (peek_stored_elsewhere (storedAddr_sameShape ret s) _ hsite2).trans (peek_storedAddr_hi ret h hsite1)

end

/-! ### JSR and BRK where every push completes -/

theorem exec_jsr_of_storeOk {s : State} (target : Addr) (h1 : storeOk s (stackAddr s.sp) = true)
    (h2 : storeOk s (stackAddr (s.sp - 1)) = true) :
    exec (.jsr target) s = .next { storedAddr (s.pc - 1) s with sp := s.sp - 2, pc := target } := by
  rw [exec_jsr_eq, pushAddr_of_storeOk _ h1 h2, done_andThen, done_outcome]
  rfl

theorem exec_brk_of_storeOk {s : State} {ret : Addr} (h1 : storeOk s (stackAddr s.sp) = true)
    (h2 : storeOk s (stackAddr (s.sp - 1)) = true) (h3 : storeOk s (stackAddr (s.sp - 2)) = true)
    (hret : ret = (skipBreakBytes s).pc) :
    exec .brk s = .next
      { afterRead vectorHi (afterRead vectorLo (storedBreak ret s)) with
        sp := s.sp - 3
        p := setFlag s.p .interruptDisable true
        pc := joinBytes (peek vectorHi (afterRead vectorLo (storedBreak ret s))) (peek vectorLo (storedBreak ret s)) } := by
  rw [exec, execBrk, takeBreak_of_storeOk h1 h2 h3 hret rfl, done_outcome]
  rfl

/-- The vector's reads leave the bytes of a RAM alone. -/
theorem peek_afterVector {s w : State} (h : SameShape s w) {b : Addr} (hb : isRam s b = true) :
    peek b (afterRead vectorHi (afterRead vectorLo w)) = peek b w := by
  have hlo : SameShape s (afterRead vectorLo w) := h.trans (memRead_sameShape vectorLo w)
  rw [peek_afterRead_of_isRam hlo hb, peek_afterRead_of_isRam h hb]

/-! ### The next fetch (70_reset_and_hazards.md R196) -/

/-- A write to RAM at PC is what the next Fetch8 gives. -/
theorem memWrite_seen_by_fetch {s : State} (v : Byte) (h : isRam s s.pc = true) :
    ∃ t, (memWrite s.pc v s).outcome = .next t ∧ t.pc = s.pc ∧ (fetch8 t).1 = v := by
  refine ⟨stored s.pc v s, memWrite_outcome_of_storeOk v (storeOk_of_isRam h), stored_pc s.pc v s, ?_⟩
  rw [fetch8_eq, stored_pc]
  exact peek_stored_ram (.refl s) v h

/-- A push to RAM at PC is what the next Fetch8 gives. -/
theorem push_seen_by_fetch {s : State} (v : Byte) (h : isRam s s.pc = true) (hsp : stackAddr s.sp = s.pc) :
    ∃ t, (push v s).outcome = .next t ∧ t.pc = s.pc ∧ (fetch8 t).1 = v := by
  have hram : isRam s (stackAddr s.sp) = true := by rw [hsp]; exact h
  refine ⟨_, push_outcome_of_storeOk v (storeOk_of_isRam hram), stored_pc _ v s, ?_⟩
  rw [fetch8_eq, stored_pc, ← hsp]
  exact peek_of_same_memory (peek_stored_ram (.refl s) v hram) rfl rfl

theorem jsr_seen_by_fetch {s : State} {target : Addr} (h1 : storeOk s (stackAddr s.sp) = true)
    (h2 : storeOk s (stackAddr (s.sp - 1)) = true) (hram : isRam s target = true) :
    ∃ t, exec (.jsr target) s = .next t ∧ t.pc = target ∧
      (target = stackAddr (s.sp - 1) → (fetch8 t).1 = loByte (s.pc - 1)) ∧
      (target = stackAddr s.sp → sameSite s (stackAddr (s.sp - 1)) target = false → (fetch8 t).1 = hiByte (s.pc - 1)) := by
  refine ⟨_, exec_jsr_of_storeOk target h1 h2, rfl, fun htarget => ?_, fun htarget hsite => ?_⟩
  · subst htarget
    exact peek_of_same_memory (peek_storedAddr_lo _ hram) rfl rfl
  · subst htarget
    exact peek_of_same_memory (peek_storedAddr_hi _ hram hsite) rfl rfl

theorem brk_seen_by_fetch {s : State} {ret : Addr} (hret : ret = s.pc + BitVec.ofNat 16 s.config.brkPcSkip.val)
    (h1 : storeOk s (stackAddr s.sp) = true) (h2 : storeOk s (stackAddr (s.sp - 1)) = true)
    (h3 : storeOk s (stackAddr (s.sp - 2)) = true) :
    ∃ t, exec .brk s = .next t ∧
      (isRam s t.pc = true →
        (t.pc = stackAddr (s.sp - 2) → (fetch8 t).1 = s.p ||| 0x10#8) ∧
        (t.pc = stackAddr (s.sp - 1) → sameSite s (stackAddr (s.sp - 2)) t.pc = false → (fetch8 t).1 = loByte ret) ∧
        (t.pc = stackAddr s.sp → sameSite s (stackAddr (s.sp - 1)) t.pc = false →
          sameSite s (stackAddr (s.sp - 2)) t.pc = false → (fetch8 t).1 = hiByte ret)) := by
  obtain ⟨t, ht, hbytes⟩ : ∃ t, exec .brk s = .next t ∧
      ∀ b, isRam s b = true → peek b t = peek b (storedBreak ret s) :=
    ⟨_, exec_brk_of_storeOk h1 h2 h3 hret, fun b hb =>
      peek_of_same_memory (peek_afterVector (storedBreak_sameShape ret s) hb) rfl rfl⟩
  refine ⟨t, ht, fun hram => ?_⟩
  have hfetch : (fetch8 t).1 = peek t.pc (storedBreak ret s) := hbytes t.pc hram
  rw [hfetch]
  refine ⟨fun hpc => ?_, fun hpc hsite => ?_, fun hpc hsite1 hsite2 => ?_⟩
  · rw [hpc] at hram ⊢
    rw [peek_storedBreak_status ret hram, pushedStatus_eq]
  · rw [hpc] at hram hsite ⊢
    exact peek_storedBreak_lo ret hram hsite
  · rw [hpc] at hram hsite1 hsite2 ⊢
    exact peek_storedBreak_hi ret hram hsite1 hsite2

/-- Settles O33: a store or push to RAM at PC is what the fetch reads; after JSR and BRK it reads the byte in the stack that no later
push has overwritten. -/
theorem storeIsSeenByTheNextFetch : Obligations.StoreIsSeenByTheNextFetch := by
  refine ⟨fun s h => ?_, fun s zp h hzp => ?_, fun s h hsp => ?_, fun s target h1 h2 hram => jsr_seen_by_fetch h1 h2 hram,
    fun s ret hret h1 h2 h3 => brk_seen_by_fetch hret h1 h2 h3⟩
  · exact ⟨memWrite_seen_by_fetch s.a h, memWrite_seen_by_fetch s.x h, memWrite_seen_by_fetch s.y h⟩
  · have hseen (v : Byte) : ∃ t, (memWrite (zeroPageAddr zp) v s).outcome = .next t ∧ t.pc = s.pc ∧ (fetch8 t).1 = v := by
      rw [hzp]; exact memWrite_seen_by_fetch v h
    exact ⟨hseen s.a, hseen s.x, hseen s.y⟩
  · exact ⟨push_seen_by_fetch s.a h hsp, push_seen_by_fetch (pushedStatus s.p) h hsp⟩

end Sys2Proof.Machine
end

