-- ==== Sys2Proof/Proofs/Frames.lean ====
section
/-! PROOFS. The frames of the 26 instructions: which bytes of memory, which registers and which flags they leave alone. -/

namespace Sys2Proof.Machine

/-! ### Memory

`Leaves s b t`: what has led from `s` to `t` has left the byte at `b` and the kinds of the devices alone. Each access keeps it
where it reaches another place than `b`, judged in the state `s` from which the instruction started. -/

structure Leaves (s : State) (b : Addr) (t : State) : Prop where
  shape : SameShape s t
  byte : peek b t = peek b s

theorem Leaves.refl (s : State) (b : Addr) : Leaves s b s := ⟨.refl s, rfl⟩

/-- Registers, the trace and the fault mark are no memory. -/
theorem Leaves.congr {s t u : State} {b : Addr} (h : Leaves s b t) (hm : u.map = t.map) (hd : u.devs = t.devs) :
    Leaves s b u :=
  ⟨h.shape.trans (.of_devs hm hd), (peek_congr b hm hd).trans h.byte⟩

section
variable {s t : State} {b : Addr} (h : Leaves s b t)
include h

theorem Leaves.afterRead {a : Addr} (ha : isPeripheral s a = true → sameSite s a b = false) :
    Leaves s b (afterRead a t) := by
  refine ⟨h.shape.trans (memRead_sameShape a t), Eq.trans (peek_afterRead ?_) h.byte⟩
  rw [isPeripheral_congr h.shape, sameSite_congr h.shape]
  exact ha

theorem Leaves.stored {a : Addr} (v : Byte) (ha : sameSite s a b = false) : Leaves s b (stored a v t) :=
  ⟨h.shape.trans (stored_sameShape a v t), (peek_stored_elsewhere h.shape v ha).trans h.byte⟩

theorem Leaves.memWrite {a : Addr} (v : Byte) (ha : sameSite s a b = false) : Leaves s b (memWrite a v t).state := by
  rcases memWrite_cases a v t with ⟨-, hw⟩ | ⟨-, -, -, hw⟩
  · rw [hw]; exact h.stored v ha
  · rw [hw]; exact h.congr rfl rfl

theorem Leaves.push (v : Byte) (ha : sameSite s (stackAddr t.sp) b = false) : Leaves s b (push v t).state := by
  cases hok : storeOk t (stackAddr t.sp) with
  | true => rw [push_of_storeOk v hok]; exact (h.stored v ha).congr rfl rfl
  | false => rw [push_of_not_storeOk v hok]; exact h.congr rfl rfl

theorem Leaves.pushAddr (w : Addr) (h1 : sameSite s (stackAddr t.sp) b = false)
    (h2 : sameSite s (stackAddr (t.sp - 1)) b = false) : Leaves s b (pushAddr w t).state := by
  cases hok1 : storeOk t (stackAddr t.sp) with
  | false => rw [pushAddr_of_first_raising w hok1]; exact h.congr rfl rfl
  | true =>
    cases hok2 : storeOk t (stackAddr (t.sp - 1)) with
    | false => rw [pushAddr_of_second_raising w hok1 hok2]; exact (h.stored _ h1).congr rfl rfl
    | true => rw [pushAddr_of_storeOk w hok1 hok2]; exact ((h.stored _ h1).stored _ h2).congr rfl rfl

end

/-- An action leaves what both its halves leave, whether or not the first raises. -/
theorem Leaves.andThen {s : State} {b : Addr} {e : Effect} {k : State → Effect} (h : Leaves s b e.state)
    (hk : ∀ t, Leaves s b t → Leaves s b (k t).state) : Leaves s b (e.andThen k).state := by
  cases e with
  | done t => exact hk t h
  | raised t => exact h

/-- The trap entry writes at most three bytes of the stack, and reads the vector. -/
theorem takeBreak_leaves {s : State} {b : Addr} (hw : ∀ a ∈ writeAddrs .brk s, sameSite s a b = false)
    (hr : ∀ a ∈ readAddrs .brk s, isPeripheral s a = true → sameSite s a b = false) :
    Leaves s b (takeBreak s).state := by
  simp only [writeAddrs, readAddrs, List.forall_mem_cons, List.not_mem_nil, false_imp_iff, implies_true, and_true] at hw hr
  obtain ⟨w1, w2, w3⟩ := hw
  obtain ⟨r1, r2⟩ := hr
  have hskip : Leaves s b (skipBreakBytes s) := (Leaves.refl s b).congr rfl rfl
  cases hok1 : storeOk s (stackAddr s.sp) with
  | false => rw [takeBreak_of_first_raising hok1]; exact hskip.congr rfl rfl
  | true =>
    cases hok2 : storeOk s (stackAddr (s.sp - 1)) with
    | false => rw [takeBreak_of_second_raising hok1 hok2]; exact (hskip.stored _ w1).congr rfl rfl
    | true =>
      cases hok3 : storeOk s (stackAddr (s.sp - 2)) with
      | false => rw [takeBreak_of_third_raising hok1 hok2 hok3]; exact ((hskip.stored _ w1).stored _ w2).congr rfl rfl
      | true =>
        rw [takeBreak_of_storeOk hok1 hok2 hok3 rfl rfl]
        exact (((((Leaves.refl s b).stored _ w1).stored _ w2).stored _ w3).afterRead r1 |>.afterRead r2).congr rfl rfl

theorem exec_leaves {i : Instr} {s t : State} {b : Addr} (h : exec i s = .next t)
    (hw : ∀ a ∈ writeAddrs i s, sameSite s a b = false)
    (hr : ∀ a ∈ readAddrs i s, isPeripheral s a = true → sameSite s a b = false) : Leaves s b t := by
  have h0 := Leaves.refl s b
  cases i with
  | brk => cases h; exact takeBreak_leaves hw hr
  | staZp | staAbs | stxZp | stxAbs | styZp | styAbs => cases h; exact h0.memWrite _ (hw _ (List.mem_singleton_self _))
  | pha | php => cases h; exact h0.push _ (hw _ (List.mem_singleton_self _))
  | jsr target =>
    cases h
    exact (h0.pushAddr _ (hw _ (by simp [writeAddrs])) (hw _ (by simp [writeAddrs]))).andThen fun t ht => ht.congr rfl rfl
  | pla => rw [exec_pla_eq] at h; cases h; exact (h0.afterRead (hr _ (by simp [readAddrs]))).congr rfl rfl
  | plp => rw [exec_plp_eq] at h; cases h; exact (h0.afterRead (hr _ (by simp [readAddrs]))).congr rfl rfl
  | jmpInd ptr =>
    cases h
    exact ((h0.afterRead (hr _ (by simp [readAddrs]))).afterRead (hr _ (by simp [readAddrs]))).congr rfl rfl
  | rts =>
    rw [exec_rts_eq] at h; cases h
    exact ((h0.afterRead (hr _ (by simp [readAddrs]))).afterRead (hr _ (by simp [readAddrs]))).congr rfl rfl
  | rti =>
    rw [exec_rti_eq] at h; cases h
    exact (((h0.afterRead (hr _ (by simp [readAddrs]))).afterRead (hr _ (by simp [readAddrs]))).afterRead
      (hr _ (by simp [readAddrs]))).congr rfl rfl
  | ldaImm | ldxImm | ldyImm | tax | txa | tay | tya | tsx | txs | jmpAbs | nop => cases h; exact h0.congr rfl rfl

/-- Settles O47: every access an instruction makes is at one of its `writeAddrs` or `readAddrs`. -/
theorem everyInstructionLeavesOtherBytes : Obligations.EveryInstructionLeavesOtherBytes :=
  fun _ _ _ _ h hw hr => (exec_leaves h hw hr).byte

/-! ### Registers (10_state.md R21, R25)

`writtenRegs` is the spec's tables of writers by instruction; PC, which every fetch moves, is left out. -/

/-- The byte-wide registers. -/
inductive Reg where
  | a
  | x
  | y
  | sp
  | p

def State.reg (s : State) : Reg → Byte
  | .a => s.a
  | .x => s.x
  | .y => s.y
  | .sp => s.sp
  | .p => s.p

def writtenRegs : Instr → List Reg
  | .ldaImm _ | .txa | .tya => [.a, .p]
  | .ldxImm _ | .tax | .tsx => [.x, .p]
  | .ldyImm _ | .tay => [.y, .p]
  | .pla => [.a, .sp, .p]
  | .plp | .brk | .rti => [.sp, .p]
  | .txs | .pha | .php | .jsr _ | .rts => [.sp]
  | .staZp _ | .staAbs _ | .stxZp _ | .stxAbs _ | .styZp _ | .styAbs _ | .jmpAbs _ | .jmpInd _ | .nop => []

@[simp] theorem stored_reg (b : Addr) (v : Byte) (s : State) (r : Reg) : (stored b v s).reg r = s.reg r := by
  cases r <;> simp [State.reg]

@[simp] theorem memWrite_reg (b : Addr) (v : Byte) (s : State) (r : Reg) : (memWrite b v s).state.reg r = s.reg r := by
  rcases memWrite_cases b v s with ⟨-, h⟩ | ⟨-, -, -, h⟩
  · rw [h, done_state, stored_reg]
  · rw [h]; rfl

theorem push_reg (v : Byte) (s : State) {r : Reg} (hr : r ≠ .sp) : (push v s).state.reg r = s.reg r := by
  cases hok : storeOk s (stackAddr s.sp) with
  | true => rw [push_of_storeOk v hok]; cases r <;> simp_all [State.reg]
  | false => rw [push_of_not_storeOk v hok]; rfl

theorem andThen_reg {s : State} {e : Effect} {k : State → Effect} {r : Reg} (h : e.state.reg r = s.reg r)
    (hk : ∀ t, (k t).state.reg r = t.reg r) : (e.andThen k).state.reg r = s.reg r := by
  cases e with
  | done t => exact (hk t).trans h
  | raised t => exact h

theorem pushAddr_reg (w : Addr) (s : State) {r : Reg} (hr : r ≠ .sp) : (pushAddr w s).state.reg r = s.reg r :=
  andThen_reg (push_reg _ s hr) fun t => push_reg _ t hr

theorem takeBreak_reg (s : State) {r : Reg} (hsp : r ≠ .sp) (hp : r ≠ .p) : (takeBreak s).state.reg r = s.reg r := by
  have hskip : (skipBreakBytes s).reg r = s.reg r := by cases r <;> rfl
  have hvector (w : State) : (loadVector (disableInterrupts w)).reg r = w.reg r := by
    rw [loadVector_eq]
    cases r <;> simp_all [State.reg, afterRead]
  exact Eq.trans (andThen_reg (pushAddr_reg _ (skipBreakBytes s) hsp) fun u => andThen_reg (push_reg _ u hsp) hvector) hskip

/-- An instruction leaves the registers it is not listed for. -/
theorem exec_reg_of_not_written {i : Instr} {s t : State} {r : Reg} (h : exec i s = .next t) (hr : r ∉ writtenRegs i) :
    t.reg r = s.reg r := by
  cases i with
  | ldaImm | ldxImm | ldyImm | tax | txa | tay | tya | tsx | txs => cases h; cases r <;> simp_all [writtenRegs, State.reg]
  | staZp | staAbs | stxZp | stxAbs | styZp | styAbs => cases h; exact memWrite_reg _ _ s r
  | pha | php => cases h; exact push_reg _ s (by simpa [writtenRegs] using hr)
  | jsr target =>
    cases h
    exact andThen_reg (pushAddr_reg _ s (by simpa [writtenRegs] using hr)) fun t => by cases r <;> rfl
  | brk =>
    cases h
    obtain ⟨hsp, hp⟩ : r ≠ .sp ∧ r ≠ .p := by simpa [writtenRegs] using hr
    exact takeBreak_reg s hsp hp
  | pla => rw [exec_pla_eq] at h; cases h; cases r <;> simp_all [writtenRegs, State.reg, afterRead]
  | plp => rw [exec_plp_eq] at h; cases h; cases r <;> simp_all [writtenRegs, State.reg, afterRead]
  | rts => rw [exec_rts_eq] at h; cases h; cases r <;> simp_all [writtenRegs, State.reg, afterRead]
  | rti => rw [exec_rti_eq] at h; cases h; cases r <;> simp_all [writtenRegs, State.reg, afterRead]
  | jmpInd ptr => cases h; cases r <;> simp [State.reg, indirectTarget]
  | jmpAbs | nop => cases h; cases r <;> rfl

/-- Settles O49: a register that has changed is one its instruction is listed for, and the list of each gives the writers. -/
theorem registersChangeOnlyByTheirWriters : Obligations.RegistersChangeOnlyByTheirWriters := by
  intro i s t h
  have hwrites (r : Reg) (hne : t.reg r ≠ s.reg r) : r ∈ writtenRegs i :=
    Classical.not_not.mp fun hr => hne (exec_reg_of_not_written h hr)
  refine ⟨fun hne => ?_, fun hne => ?_, fun hne => ?_, fun hne => ?_⟩
  · have hmem := hwrites .a hne
    cases i <;> simp [writtenRegs] at hmem ⊢
  · have hmem := hwrites .x hne
    cases i <;> simp [writtenRegs] at hmem ⊢
  · have hmem := hwrites .y hne
    cases i <;> simp [writtenRegs] at hmem ⊢
  · have hmem := hwrites .sp hne
    cases i <;> simp [writtenRegs] at hmem ⊢

/-! ### Flags (10_state.md R29) -/

/-- SetZN changes Z and N only. -/
theorem zn_of_getFlag_withZN_ne {v p : Byte} {f : Flag} (h : getFlag (withZN v p) f ≠ getFlag p f) :
    f = .zero ∨ f = .negative := by
  by_contra hf
  push Not at hf
  obtain ⟨-, -, hkept⟩ := withZN_zNFrom v p
  exact h (hkept f hf.1 hf.2)

/-- Of P the trap entry writes I, if it comes so far. -/
theorem takeBreak_p (s : State) :
    (takeBreak s).state.p = s.p ∨ (takeBreak s).state.p = setFlag s.p .interruptDisable true := by
  cases h1 : storeOk s (stackAddr s.sp) with
  | false => rw [takeBreak_of_first_raising h1]; exact .inl rfl
  | true =>
    cases h2 : storeOk s (stackAddr (s.sp - 1)) with
    | false => rw [takeBreak_of_second_raising h1 h2]; exact .inl (by simp)
    | true =>
      cases h3 : storeOk s (stackAddr (s.sp - 2)) with
      | false => rw [takeBreak_of_third_raising h1 h2 h3]; exact .inl (by simp)
      | true => rw [takeBreak_of_storeOk h1 h2 h3 rfl rfl]; exact .inr rfl

theorem interruptDisable_of_takeBreak_changed {s : State} {f : Flag}
    (h : getFlag (takeBreak s).state.p f ≠ getFlag s.p f) : f = .interruptDisable := by
  rcases takeBreak_p s with hp | hp
  · exact absurd (by rw [hp]) h
  · rw [hp, getFlag_interruptDisabled] at h
    exact Classical.not_not.mp fun hf => h (if_neg hf)

/-- Settles O48: P is kept, or comes whole from the stack, or is written by the trap entry, or by SetZN. -/
theorem flagsChangeOnlyByTheirWriters : Obligations.FlagsChangeOnlyByTheirWriters := by
  intro i s t f h hne
  have hwrites : Reg.p ∈ writtenRegs i := by
    by_contra hp
    exact hne (congrArg (getFlag · f) (exec_reg_of_not_written h hp))
  cases i with
  | plp | rti => simp
  | brk => cases h; simp [interruptDisable_of_takeBreak_changed hne]
  | pla => rw [exec_pla_eq] at h; cases h; simpa using zn_of_getFlag_withZN_ne hne
  | ldaImm | ldxImm | ldyImm | tax | txa | tay | tya | tsx => cases h; simpa using zn_of_getFlag_withZN_ne hne
  | staZp | staAbs | stxZp | stxAbs | styZp | styAbs | txs | pha | php | jmpAbs | jmpInd | jsr | rts | nop =>
    simp [writtenRegs] at hwrites

end Sys2Proof.Machine
end

