-- ==== Sys2Proof/Proofs/FlagsInert.lean ====
section
/-! PROOFS. 10_state.md R30: no instruction looks at a flag. Every operation commutes with replacing P; only the status byte that PHP and
BRK push carries P into memory. -/

namespace Sys2Proof.Machine

/-! ### The same state with another P -/

/-- `s` with `p` in P. -/
def State.withP (p : Byte) (s : State) : State := { s with p := p }

/-- An effect that ends in the same way, with `p` in P. -/
def Effect.withP (p : Byte) : Effect → Effect
  | .done s => .done (s.withP p)
  | .raised s => .raised (s.withP p)

section
variable (p : Byte) (s : State)

theorem Effect.withP_outcome (e : Effect) : (e.withP p).outcome = .next (e.state.withP p) := by cases e <;> rfl

theorem Effect.andThen_withP (e : Effect) {k : State → Effect} (hk : ∀ t, k (t.withP p) = (k t).withP p) :
    (e.withP p).andThen k = (e.andThen k).withP p := by
  cases e with
  | done t => exact hk t
  | raised t => rfl

theorem memRead_withP (b : Addr) : memRead b (s.withP p) = ((memRead b s).1, (memRead b s).2.withP p) := by
  obtain ⟨devs, h, -⟩ := memRead_after b s
  rw [memRead_congr b s (s.withP p) rfl rfl, h]
  rfl

theorem stored_withP (b : Addr) (v : Byte) : stored b v (s.withP p) = (stored b v s).withP p := by
  obtain ⟨devs, h, -⟩ := stored_after b v s
  rw [stored_congr b v s (s.withP p) rfl rfl, h]
  rfl

theorem storedAddr_withP (w : Addr) : storedAddr w (s.withP p) = (storedAddr w s).withP p := by
  have hsp : (s.withP p).sp = s.sp := rfl
  simp only [storedAddr, hsp, stored_withP]

theorem storeOk_withP (b : Addr) : storeOk (s.withP p) b = storeOk s b := storeOk_congr b rfl rfl

theorem memWrite_withP (b : Addr) (v : Byte) : memWrite b v (s.withP p) = (memWrite b v s).withP p := by
  have hc := storeOk_withP p s b
  cases h : storeOk s b with
  | true => rw [memWrite_of_storeOk v h, memWrite_of_storeOk v (hc.trans h), stored_withP]; rfl
  | false => rw [memWrite_of_not_storeOk v h, memWrite_of_not_storeOk v (hc.trans h)]; rfl

theorem push_withP (v : Byte) : push v (s.withP p) = (push v s).withP p := by
  have hsp : (s.withP p).sp = s.sp := rfl
  rw [push, memWrite_withP, hsp]
  exact Effect.andThen_withP p _ fun _ => rfl

theorem pushAddr_withP (w : Addr) : pushAddr w (s.withP p) = (pushAddr w s).withP p := by
  rw [pushAddr, push_withP]
  exact Effect.andThen_withP p _ fun t => push_withP p t _

theorem pull_withP : pull (s.withP p) = ((pull s).1, (pull s).2.withP p) :=
  memRead_withP p { s with sp := s.sp + 1 } (stackAddr (s.sp + 1))

theorem pullAddr_withP : pullAddr (s.withP p) = ((pullAddr s).1, (pullAddr s).2.withP p) := by
  simp only [pullAddr, pull_withP]

/-- The return from the trap pulls P anew. -/
theorem returnFromBreak_withP : returnFromBreak (s.withP p) = returnFromBreak s := by
  simp only [returnFromBreak, pull_withP]
  rfl

theorem indirectTarget_withP (ptr : Addr) :
    indirectTarget ptr (s.withP p) = ((indirectTarget ptr s).1, (indirectTarget ptr s).2.withP p) := by
  simp only [indirectTarget, memRead_withP]

theorem fetch8_withP : fetch8 (s.withP p) = ((fetch8 s).1, (fetch8 s).2.withP p) := by
  have hpc : (s.withP p).pc = s.pc := rfl
  simp only [fetch8, hpc, memRead_withP]
  rfl

theorem fetch16_withP : fetch16 (s.withP p) = ((fetch16 s).1, (fetch16 s).2.withP p) := by
  simp only [fetch16, fetch8_withP]

theorem peek_withP (b : Addr) : peek b (s.withP p) = peek b s := peek_congr b rfl rfl

theorem fetchInstr_withP : fetchInstr (s.withP p) = ((fetchInstr s).1, (fetchInstr s).2.withP p) := by
  have hf : formOf (s.withP p).config.xyStoreModes (peek (s.withP p).pc (s.withP p)) =
      formOf s.config.xyStoreModes (peek s.pc s) := congrArg (formOf _) (peek_withP p s s.pc)
  cases h : formOf s.config.xyStoreModes (peek s.pc s) with
  | none =>
    have hbyte : peek (s.withP p).pc (s.withP p) = peek s.pc s := peek_withP p s s.pc
    rw [fetchInstr_unknown h, fetchInstr_unknown (hf.trans h), fetch8_withP, hbyte]
  | some f =>
    cases f with
    | f1 i => rw [fetchInstr_f1 h, fetchInstr_f1 (hf.trans h), fetch8_withP]
    | f2 mk => rw [fetchInstr_f2 h, fetchInstr_f2 (hf.trans h), fetch8_withP, fetch8_withP]
    | f3 mk => rw [fetchInstr_f3 h, fetchInstr_f3 (hf.trans h), fetch8_withP, fetch16_withP]

end

/-! ### Every instruction but PHP and BRK -/

theorem exec_withP {i : Instr} {s t : State} (p : Byte) (h : exec i s = .next t) (hphp : i ≠ .php) (hbrk : i ≠ .brk) :
    ∃ q, exec i (s.withP p) = .next (t.withP q) := by
  cases i with
  | php => exact absurd rfl hphp
  | brk => exact absurd rfl hbrk
  | staZp | staAbs | stxZp | stxAbs | styZp | styAbs =>
    cases h
    exact ⟨p, (congrArg Effect.outcome (memWrite_withP p s _ _)).trans (Effect.withP_outcome p _)⟩
  | pha => cases h; exact ⟨p, (congrArg Effect.outcome (push_withP p s _)).trans (Effect.withP_outcome p _)⟩
  | jsr target =>
    cases h
    refine ⟨p, ?_⟩
    rw [← Effect.withP_outcome, exec_jsr_eq, pushAddr_withP]
    exact congrArg Effect.outcome (Effect.andThen_withP p _ fun _ => rfl)
  | pla =>
    cases h
    refine ⟨withZN (pull s).1 p, ?_⟩
    simp only [exec, execPla, pull_withP]
    rfl
  | plp => cases h; exact ⟨(pull s).1, by simp only [exec, execPlp, pull_withP]; rfl⟩
  | jmpInd ptr => cases h; exact ⟨p, by simp only [exec, execJmpInd, indirectTarget_withP]; rfl⟩
  | rts => cases h; exact ⟨p, by simp only [exec, execRts, pullAddr_withP]; rfl⟩
  | rti =>
    cases h
    refine ⟨(returnFromBreak s).p, ?_⟩
    rw [exec, execRti, returnFromBreak_withP]
    rfl
  | ldaImm v | ldxImm v | ldyImm v => cases h; exact ⟨withZN v p, rfl⟩
  | tax | tay => cases h; exact ⟨withZN s.a p, rfl⟩
  | txa => cases h; exact ⟨withZN s.x p, rfl⟩
  | tya => cases h; exact ⟨withZN s.y p, rfl⟩
  | tsx => cases h; exact ⟨withZN s.sp p, rfl⟩
  | txs | jmpAbs | nop => cases h; exact ⟨p, rfl⟩

theorem step_withP {s t : State} (p : Byte) (h : step s = .next t) (hphp : (fetchInstr s).1 ≠ .instr .php)
    (hbrk : (fetchInstr s).1 ≠ .instr .brk) : ∃ q, step (s.withP p) = .next (t.withP q) := by
  obtain ⟨hs, ⟨i, u, hfetch, hexec⟩ | ⟨op, u, hfetch, rfl⟩⟩ := step_cases h
  · have hs' : (s.withP p).fault = none := hs
    have hfetch' : fetchInstr (s.withP p) = (.instr i, u.withP p) := by rw [fetchInstr_withP, hfetch]
    rw [hfetch] at hphp hbrk
    rw [step_of_fetched_instr hs' hfetch']
    exact exec_withP p hexec (fun e => hphp (by rw [e])) fun e => hbrk (by rw [e])
  · have hs' : (s.withP p).fault = none := hs
    have hfetch' : fetchInstr (s.withP p) = (.unknown op, u.withP p) := by rw [fetchInstr_withP, hfetch]
    exact ⟨p, step_of_fetched_unknown hs' hfetch'⟩

/-! ### PHP and BRK -/

/-- With the same memory, two states agree wherever the pushed status may be. -/
theorem agreeButStatusAt_of_same_memory {s t u : State} (a : Addr) (h : SameShape s t)
    (e : u = { t with p := u.p, fault := u.fault }) (f : (u.fault.map fun e => e.addr) = t.fault.map fun e => e.addr) :
    AgreeButStatusAt s a t u := by
  have hag : Agree s a t u := .of_same a h (by rw [e]) (by rw [e])
  exact hag.agreeButStatusAt (by rw [e]) f

theorem php_agree {s t : State} (p : Byte) (h : exec .php s = .next t) :
    ∃ u, exec .php (s.withP p) = .next u ∧ u.pc = t.pc ∧ AgreeButStatusAt s (stackAddr s.sp) t u := by
  cases hok : storeOk s (stackAddr s.sp) with
  | false =>
    have h' := push_outcome_of_not_storeOk (s := s.withP p) (pushedStatus p) ((storeOk_withP p s _).trans hok)
    rw [exec, execPhp, push_outcome_of_not_storeOk _ hok] at h
    cases h
    exact ⟨_, h', rfl, agreeButStatusAt_of_same_memory _ (.of_devs rfl rfl) rfl rfl⟩
  | true =>
    have h' := push_outcome_of_storeOk (s := s.withP p) (pushedStatus p) ((storeOk_withP p s _).trans hok)
    rw [exec, execPhp, push_outcome_of_storeOk _ hok] at h
    cases h
    have hag : Agree s (stackAddr s.sp) (stored (stackAddr s.sp) (pushedStatus s.p) s)
        (stored (stackAddr s.sp) (pushedStatus p) (s.withP p)) := .of_stored _ _ _ (.refl s) rfl rfl
    refine ⟨_, h', by simp [State.withP], Agree.agreeButStatusAt (hag.congr rfl rfl rfl rfl) ?_ (by simp [State.withP])⟩
    apply State.ext <;> simp [State.withP]

/-- The two status bytes are stored in one place, and nothing else differs. -/
theorem storedBreak_withP_agree (ret : Addr) (s : State) (p : Byte) :
    Agree s (stackAddr (s.sp - 2)) (storedBreak ret s) (storedBreak ret (s.withP p)) := by
  have hrest := storedAddr_withP p s ret
  exact .of_stored _ _ _ (storedAddr_sameShape ret s) (by rw [hrest]; rfl) (by rw [hrest]; rfl)

theorem brk_agree_of_storeOk {s t : State} (p : Byte) (h : exec .brk s = .next t) (h1 : storeOk s (stackAddr s.sp) = true)
    (h2 : storeOk s (stackAddr (s.sp - 1)) = true) (h3 : storeOk s (stackAddr (s.sp - 2)) = true) :
    ∃ u, exec .brk (s.withP p) = .next u ∧ AgreeButStatusAt s (stackAddr (s.sp - 2)) t u ∧
      (sameSite s (stackAddr (s.sp - 2)) vectorLo = false → sameSite s (stackAddr (s.sp - 2)) vectorHi = false →
        u.pc = t.pc) := by
  have hu := exec_brk_of_storeOk (s := s.withP p) (ret := (skipBreakBytes s).pc) ((storeOk_withP p s _).trans h1)
    ((storeOk_withP p s _).trans h2) ((storeOk_withP p s _).trans h3) rfl
  rw [exec_brk_of_storeOk h1 h2 h3 rfl] at h
  cases h
  have hag := storedBreak_withP_agree (skipBreakBytes s).pc s p
  have hread := hag.read vectorLo
  refine ⟨_, hu, Agree.agreeButStatusAt ((hread.read vectorHi).congr rfl rfl rfl rfl) ?_ ?_, fun hlo hhi => ?_⟩
  · apply State.ext <;> simp [State.withP, afterRead, storedBreak, storedAddr]
  · simp [State.withP, afterRead]
  · exact congrArg₂ joinBytes (hread.pk vectorHi hhi) (hag.pk vectorLo hlo)

theorem skipBreakBytes_withP (p : Byte) (s : State) : skipBreakBytes (s.withP p) = (skipBreakBytes s).withP p := rfl

/-- A raise comes before the status byte is stored. -/
theorem brk_agree_of_raising {s t : State} (p : Byte) (h : exec .brk s = .next t)
    (hraise : storeOk s (stackAddr s.sp) = false ∨ storeOk s (stackAddr (s.sp - 1)) = false ∨
      storeOk s (stackAddr (s.sp - 2)) = false) :
    ∃ u, exec .brk (s.withP p) = .next u ∧ AgreeButStatusAt s (stackAddr (s.sp - 2)) t u ∧ u.pc = t.pc := by
  have hshape : SameShape s t := by
    obtain ⟨t', ht', hkeeps⟩ := exec_keeps .brk s
    rw [h] at ht'
    cases ht'
    exact hkeeps.shape
  have hok := storeOk_withP p s
  rw [exec, execBrk] at h
  cases h1 : storeOk s (stackAddr s.sp) with
  | false =>
    have hu := takeBreak_of_first_raising (s := s.withP p) ((hok _).trans h1)
    rw [takeBreak_of_first_raising h1] at h
    cases h
    exact ⟨_, congrArg Effect.outcome hu, agreeButStatusAt_of_same_memory _ hshape rfl rfl, rfl⟩
  | true =>
    cases h2 : storeOk s (stackAddr (s.sp - 1)) with
    | false =>
      have hu := takeBreak_of_second_raising (s := s.withP p) ((hok _).trans h1) ((hok _).trans h2)
      rw [skipBreakBytes_withP, stored_withP] at hu
      rw [takeBreak_of_second_raising h1 h2] at h
      cases h
      exact ⟨_, congrArg Effect.outcome hu, agreeButStatusAt_of_same_memory _ hshape rfl rfl, rfl⟩
    | true =>
      have h3 : storeOk s (stackAddr (s.sp - 2)) = false :=
        (hraise.resolve_left (by rw [h1]; decide)).resolve_left (by rw [h2]; decide)
      have hu := takeBreak_of_third_raising (s := s.withP p) ((hok _).trans h1) ((hok _).trans h2) ((hok _).trans h3)
      rw [skipBreakBytes_withP, stored_withP, stored_withP] at hu
      rw [takeBreak_of_third_raising h1 h2 h3] at h
      cases h
      exact ⟨_, congrArg Effect.outcome hu, agreeButStatusAt_of_same_memory _ hshape rfl rfl, rfl⟩

theorem brk_agree {s t : State} (p : Byte) (h : exec .brk s = .next t) :
    ∃ u, exec .brk (s.withP p) = .next u ∧ AgreeButStatusAt s (stackAddr (s.sp - 2)) t u ∧
      (sameSite s (stackAddr (s.sp - 2)) vectorLo = false → sameSite s (stackAddr (s.sp - 2)) vectorHi = false →
        u.pc = t.pc) := by
  by_cases hraise : storeOk s (stackAddr s.sp) = false ∨ storeOk s (stackAddr (s.sp - 1)) = false ∨
      storeOk s (stackAddr (s.sp - 2)) = false
  · obtain ⟨u, hu, hag, hpc⟩ := brk_agree_of_raising p h hraise
    exact ⟨u, hu, hag, fun _ _ => hpc⟩
  · simp only [not_or, Bool.not_eq_false] at hraise
    obtain ⟨h1, h2, h3⟩ := hraise
    exact brk_agree_of_storeOk p h h1 h2 h3

/-- Settles O50: a step commutes with replacing P but for the status byte pushed, and that reaches one place. -/
theorem flagsDoNotInfluenceExecution : Obligations.FlagsDoNotInfluenceExecution :=
  ⟨fun _ _ p h hphp hbrk => step_withP p h hphp hbrk, fun _ _ p h => php_agree p h, fun _ _ p h => brk_agree p h⟩

end Sys2Proof.Machine
end

