-- ==== Sys2Proof/Proofs/StackLaws.lean ====
section
/-! PROOFS. 43_stack.md to 45_interrupt_nop.md: what a pull, a return and a return from a break undo, and the stack's wrap. -/

namespace Sys2Proof.Machine

/-! ### A push and a pull (R144) -/

/-- Settles O53: the pull comes back to the byte just stored, and its read of a RAM changes nothing. -/
theorem pullUndoesPush : Obligations.PullUndoesPush := by
  intro s v hram
  obtain ⟨t, ht⟩ : ∃ t : State, t = { stored (stackAddr s.sp) v s with sp := s.sp - 1 } := ⟨_, rfl⟩
  have hshape : SameShape s t := ht ▸ (stored_sameShape _ v s).trans (.of_devs rfl rfl)
  have hsp : t.sp + 1 = s.sp := by rw [ht]; exact BitVec.sub_add_cancel s.sp 1
  have hbyte : peek (stackAddr s.sp) t = v :=
    ht ▸ peek_of_same_memory (peek_stored_ram (.refl s) v hram) rfl rfl
  have hplain : memRead (stackAddr s.sp) t = (peek (stackAddr s.sp) t, t) :=
    memRead_plain (not_peripheral_of_isRam ((isRam_congr hshape _).trans hram))
  refine ⟨t, ht ▸ push_of_storeOk v (storeOk_of_isRam hram), ?_, ?_⟩
  · rw [pull_eq, hsp, hbyte]
  · rw [pull_eq, hsp, afterRead, hplain]

/-! ### Repeated pushes (R140) -/

theorem repeatExec_succ_of_exec {i : Instr} {s t : State} (n : Nat) (h : exec i s = .next t) :
    repeatExec i (n + 1) s = repeatExec i n t := by
  simp only [repeatExec, h]

theorem repeatExec_pha (n : Nat) {s : State} (hok : ∀ sp, storeOk s (stackAddr sp) = true) :
    ∃ t, repeatExec .pha n s = some t ∧ t.sp = s.sp - BitVec.ofNat 8 n ∧
      t.fault = s.fault ∧ t.trace = s.trace ∧ t.a = s.a ∧ t.pc = s.pc := by
  induction n generalizing s with
  | zero => exact ⟨s, rfl, (BitVec.sub_zero s.sp).symm, rfl, rfl, rfl, rfl⟩
  | succ n ih =>
    obtain ⟨u, hu⟩ : ∃ u : State, u = { stored (stackAddr s.sp) s.a s with sp := s.sp - 1 } := ⟨_, rfl⟩
    have hpha : exec .pha s = .next u := hu ▸ push_outcome_of_storeOk s.a (hok s.sp)
    have hok' : ∀ sp, storeOk u (stackAddr sp) = true := fun sp => by
      rw [storeOk_congr (s := s) _ (by simp [hu]) (by simp [hu])]
      exact hok sp
    obtain ⟨t, ht, hsp, hfault, htrace, ha, hpc⟩ := ih hok'
    refine ⟨t, (repeatExec_succ_of_exec n hpha).trans ht, ?_, ?_, ?_, ?_, ?_⟩
    · have hone : s.sp - BitVec.ofNat 8 (n + 1) = s.sp - 1 - BitVec.ofNat 8 n := by bv_omega
      rw [hsp, hone, hu]
    · rw [hfault, hu, stored_fault]
    · rw [htrace, hu, stored_trace]
    · rw [ha, hu, stored_a]
    · rw [hpc, hu, stored_pc]

/-- Settles O54: SP after n pushes by induction, and for n = 256 it has come round. -/
theorem repeatedPushesWrap : Obligations.RepeatedPushesWrap := by
  refine ⟨fun n s hok => repeatExec_pha n hok, fun s hok => ?_⟩
  obtain ⟨t, ht, hsp, -⟩ := repeatExec_pha 256 hok
  have hround : t.sp = s.sp := hsp.trans (BitVec.sub_zero s.sp)
  exact ⟨t, ht, hround, by rw [writeAddrs, writeAddrs, hround]⟩

/-! ### The fetch of an instruction and the stack -/

/-- Fetching moves PC and may change peripherals, and nothing else. -/
theorem fetchBytes_after (n : Nat) (s : State) :
    SameShape s (fetchBytes n s).2 ∧
      ∃ devs, (fetchBytes n s).2 = { s with devs := devs, pc := s.pc + BitVec.ofNat 16 n } := by
  induction n generalizing s with
  | zero => exact ⟨.refl s, s.devs, by simp [fetchBytes]⟩
  | succ n ih =>
    obtain ⟨hshape, devs, hfetch, -⟩ := fetch8_keeps s
    obtain ⟨hshapes, devs', hrest⟩ := ih (fetch8 s).2
    refine ⟨hshape.trans hshapes, devs', ?_⟩
    have hpc : (fetch8 s).2.pc + BitVec.ofNat 16 n = s.pc + BitVec.ofNat 16 (n + 1) := addr_succ_add s.pc n
    rw [fetchBytes, hrest, hpc, hfetch]

/-- No fetch changes a byte of a RAM. -/
theorem peek_fetchBytes_of_isRam (n : Nat) {s : State} {b : Addr} (hb : isRam s b = true) :
    peek b (fetchBytes n s).2 = peek b s := by
  induction n generalizing s with
  | zero => rfl
  | succ n ih =>
    have hb' : isRam (fetch8 s).2 b = true := (isRam_congr (fetch8_keeps s).1 b).trans hb
    exact (ih hb').trans (peek_of_same_memory (peek_afterRead_of_isRam (.refl s) hb) rfl rfl)

/-! ### JSR and RTS (R154) -/

/-- A JSR whose two stack bytes are different bytes of RAM leaves the address of its last byte in them. -/
theorem step_jsr {s : State} {target : Addr} (hs : s.fault = none) (hfetch : (fetchBytes 3 s).1 = encode (.jsr target))
    (h0 : isRam s (stackAddr s.sp) = true) (h1 : isRam s (stackAddr (s.sp - 1)) = true)
    (hsite : sameSite s (stackAddr (s.sp - 1)) (stackAddr s.sp) = false) :
    ∃ t, step s = .next t ∧ t.pc = target ∧ t.fault = none ∧ t.sp = s.sp - 2 ∧
      peek (stackAddr (s.sp - 1)) t = loByte (s.pc + 3 - 1) ∧ peek (stackAddr s.sp) t = hiByte (s.pc + 3 - 1) := by
  obtain ⟨hshape, devs, hu⟩ := fetchBytes_after 3 s
  have hstep : step s = exec (.jsr target) (fetchBytes 3 s).2 := step_of_encode hs rfl hfetch
  generalize (fetchBytes 3 s).2 = u at hshape hu hstep
  have hsp : u.sp = s.sp := by rw [hu]
  have hpc : u.pc = s.pc + 3 := by rw [hu]; rfl
  have hf : u.fault = none := by rw [hu]; exact hs
  rw [← isRam_congr hshape, ← hsp] at h0 h1
  rw [← sameSite_congr hshape, ← hsp] at hsite
  rw [exec_jsr_of_storeOk target (storeOk_of_isRam h0) (storeOk_of_isRam h1)] at hstep
  refine ⟨_, hstep, rfl, by rw [storedAddr_fault, hf], by rw [hsp], ?_, ?_⟩
  · rw [← hsp, ← hpc]
    exact peek_of_same_memory (peek_storedAddr_lo _ h1) rfl rfl
  · rw [← hsp, ← hpc]
    exact peek_of_same_memory (peek_storedAddr_hi _ h0 hsite) rfl rfl

/-- An RTS from RAM goes to the address it pulls, plus one. -/
theorem step_rts {u : State} (hu : u.fault = none) (hfetch : (fetchBytes 1 u).1 = encode .rts)
    (h1 : isRam u (stackAddr (u.sp + 1)) = true) (h2 : isRam u (stackAddr (u.sp + 2)) = true) :
    ∃ w, step u = .next w ∧ w.sp = u.sp + 2 ∧
      w.pc = joinBytes (peek (stackAddr (u.sp + 2)) u) (peek (stackAddr (u.sp + 1)) u) + 1 := by
  obtain ⟨hshape, devs, hv⟩ := fetchBytes_after 1 u
  have hstep : step u = exec .rts (fetchBytes 1 u).2 := step_of_encode hu rfl hfetch
  have hsp : (fetchBytes 1 u).2.sp = u.sp := by rw [hv]
  rw [exec_rts_eq, hsp, peek_afterRead_of_isRam hshape h2, peek_fetchBytes_of_isRam 1 h1, peek_fetchBytes_of_isRam 1 h2]
    at hstep
  exact ⟨_, hstep, rfl, rfl⟩

/-- Settles O55: the RTS pulls the address of JSR's last byte, whose successor is the instruction after it. -/
theorem returnUndoesCall : Obligations.ReturnUndoesCall := by
  intro s target hs hfetch h0 h1 hsite
  rw [sameSite_comm] at hsite
  obtain ⟨t, hstep, hpc, hfault, hsp, hlo, hhi⟩ := step_jsr hs hfetch h0 h1 hsite
  have hsp1 : t.sp + 1 = s.sp - 1 := by rw [hsp]; bv_omega
  have hsp2 : t.sp + 2 = s.sp := by rw [hsp]; exact BitVec.sub_add_cancel s.sp 2
  refine ⟨t, hstep, hpc, hfault, fun u hu husp hrts hr1 hr2 hlo' hhi' => ?_⟩
  rw [hsp1, hlo] at hlo'
  rw [hsp2, hhi] at hhi'
  rw [← husp] at hr1 hr2 hsp1 hsp2
  obtain ⟨w, hw, hwsp, hwpc⟩ := step_rts hu hrts hr1 hr2
  refine ⟨w, hw, ?_, hwsp.trans hsp2⟩
  rw [hwpc, hsp1, hsp2, hlo', hhi', joinBytes_hiByte_loByte, BitVec.sub_add_cancel]

/-! ### BRK and RTI (R163) -/

/-- A BRK whose three stack bytes are different bytes of RAM leaves the return address and the status byte in them. -/
theorem step_brk {s : State} {ret : Addr} (hs : s.fault = none) (hfetch : (fetchBytes 1 s).1 = encode .brk)
    (hret : ret = s.pc + 1 + BitVec.ofNat 16 s.config.brkPcSkip.val)
    (h0 : isRam s (stackAddr s.sp) = true) (h1 : isRam s (stackAddr (s.sp - 1)) = true)
    (h2 : isRam s (stackAddr (s.sp - 2)) = true)
    (h10 : sameSite s (stackAddr (s.sp - 1)) (stackAddr s.sp) = false)
    (h20 : sameSite s (stackAddr (s.sp - 2)) (stackAddr s.sp) = false)
    (h21 : sameSite s (stackAddr (s.sp - 2)) (stackAddr (s.sp - 1)) = false) :
    ∃ t, step s = .next t ∧ t.fault = none ∧ t.sp = s.sp - 3 ∧ peek (stackAddr (s.sp - 2)) t = pushedStatus s.p ∧
      peek (stackAddr (s.sp - 1)) t = loByte ret ∧ peek (stackAddr s.sp) t = hiByte ret := by
  obtain ⟨hshape, devs, hu⟩ := fetchBytes_after 1 s
  have hstep : step s = exec .brk (fetchBytes 1 s).2 := step_of_encode hs rfl hfetch
  generalize (fetchBytes 1 s).2 = u at hshape hu hstep
  have hsp : u.sp = s.sp := by rw [hu]
  have hp : u.p = s.p := by rw [hu]
  have hf : u.fault = none := by rw [hu]; exact hs
  have hret' : ret = (skipBreakBytes u).pc := by rw [hret, hu]; rfl
  rw [← isRam_congr hshape, ← hsp] at h0 h1 h2
  rw [← sameSite_congr hshape, ← hsp] at h10 h20 h21
  rw [exec_brk_of_storeOk (storeOk_of_isRam h0) (storeOk_of_isRam h1) (storeOk_of_isRam h2) hret'] at hstep
  have hbyte {b : Addr} {v : Byte} (hb : isRam u b = true) (hv : peek b (storedBreak ret u) = v) :=
    (peek_afterVector (storedBreak_sameShape ret u) hb).trans hv
  rw [← hsp, ← hp]
  refine ⟨_, hstep, by simp [afterRead, hf], rfl, ?_, ?_, ?_⟩
  · exact peek_of_same_memory (hbyte h2 (peek_storedBreak_status ret h2)) rfl rfl
  · exact peek_of_same_memory (hbyte h1 (peek_storedBreak_lo ret h1 h21)) rfl rfl
  · exact peek_of_same_memory (hbyte h0 (peek_storedBreak_hi ret h0 h10 h20)) rfl rfl

/-- An RTI from RAM takes P and PC from the three bytes it pulls. -/
theorem step_rti {u : State} (hu : u.fault = none) (hfetch : (fetchBytes 1 u).1 = encode .rti)
    (h1 : isRam u (stackAddr (u.sp + 1)) = true) (h2 : isRam u (stackAddr (u.sp + 2)) = true)
    (h3 : isRam u (stackAddr (u.sp + 3)) = true) :
    ∃ w, step u = .next w ∧ w.sp = u.sp + 3 ∧ w.p = peek (stackAddr (u.sp + 1)) u ∧
      w.pc = joinBytes (peek (stackAddr (u.sp + 3)) u) (peek (stackAddr (u.sp + 2)) u) := by
  obtain ⟨hshape, devs, hv⟩ := fetchBytes_after 1 u
  have hstep : step u = exec .rti (fetchBytes 1 u).2 := step_of_encode hu rfl hfetch
  have hsp : (fetchBytes 1 u).2.sp = u.sp := by rw [hv]
  have hread : SameShape u (afterRead (stackAddr (u.sp + 1)) (fetchBytes 1 u).2) := hshape.trans (memRead_sameShape _ _)
  rw [exec_rti_eq, hsp, peek_afterRead_of_isRam hread h3, peek_afterRead_of_isRam hshape h3,
    peek_afterRead_of_isRam hshape h2, peek_fetchBytes_of_isRam 1 h1, peek_fetchBytes_of_isRam 1 h2,
    peek_fetchBytes_of_isRam 1 h3] at hstep
  exact ⟨_, hstep, rfl, rfl, rfl⟩

/-- Settles O56: the RTI pulls the three bytes that the BRK pushed. -/
theorem returnFromInterruptUndoesBreak : Obligations.ReturnFromInterruptUndoesBreak := by
  intro s hs hfetch h0 h1 h2 h01 h02 h12
  rw [sameSite_comm] at h01 h02 h12
  obtain ⟨t, hstep, hfault, hsp, hst, hlo, hhi⟩ := step_brk hs hfetch rfl h0 h1 h2 h01 h02 h12
  have hsp1 : t.sp + 1 = s.sp - 2 := by rw [hsp]; bv_omega
  have hsp2 : t.sp + 2 = s.sp - 1 := by rw [hsp]; bv_omega
  have hsp3 : t.sp + 3 = s.sp := by rw [hsp]; exact BitVec.sub_add_cancel s.sp 3
  refine ⟨t, hstep, hfault, fun u hu husp hrti hstack => ?_⟩
  obtain ⟨hr1, hst'⟩ := hstack 1 (.inl rfl)
  obtain ⟨hr2, hlo'⟩ := hstack 2 (.inr (.inl rfl))
  obtain ⟨hr3, hhi'⟩ := hstack 3 (.inr (.inr rfl))
  rw [hsp1, hst] at hst'
  rw [hsp2, hlo] at hlo'
  rw [hsp3, hhi] at hhi'
  rw [← husp] at hr1 hr2 hr3 hsp1 hsp2 hsp3
  obtain ⟨w, hw, hwsp, hwp, hwpc⟩ := step_rti hu hrti hr1 hr2 hr3
  refine ⟨w, hw, ?_, ?_, hwsp.trans hsp3⟩
  · rw [hwpc, hsp2, hsp3, hlo', hhi', joinBytes_hiByte_loByte]
  · rw [hwp, hsp1, hst', pushedStatus_eq]

end Sys2Proof.Machine
end
